-- ==== Sys2Proof/Word.lean ====
section
/-! DEFINITION. The values the block handles: bits, bytes and the three kinds of amplitude values (spec/00_scope.md R5, R6, R7). -/

namespace Sys2Proof

/-- A bit (R7): `true` is 1, `false` is 0.  A decision is carried the same way (R80): `true` is +1, `false` is -1. -/
abbrev Bit := Bool

/-- A byte (R7). -/
abbrev Byte := BitVec 8

/-- The numeric type `AMP` the block is built with.  R5 leaves it OPEN, a model argument; R6 names two
reference forms, and any other set of values with the six operations is the third kind. -/
inductive AmpKind where
  /-- `Q`: exact rationals (R6). -/
  | q
  /-- `F64`: IEEE 754 binary64 (R6, R74). -/
  | f64
  /-- Any other `AMP`: its values are known by numbers, its operations are opaque constants of Config (93 U1, U3). -/
  | custom
deriving DecidableEq, Repr

/-- One value of `AMP`, as plain data.  Each kind of `AMP` has its own constructor. -/
inductive Amp where
  /-- A value of `Q`: "the model passes the rational itself" (R74). -/
  | rat (r : Rat)
  /-- A value of `F64`: its 64-bit pattern, bit 63 the sign, bits 62:52 the exponent, bits 51:0 the fraction (R74). -/
  | f64 (b : BitVec 64)
  /-- A value of another `AMP`, known by a number; number 0 is that type's `AMP_ZERO`. -/
  | code (n : Nat)
deriving DecidableEq, Repr

end Sys2Proof
end

