-- ==== Sys2Proof/Config.lean ====
section
/-! DEFINITION. What is fixed for the machine: the sizes R5 gives, and the values the spec leaves open, each an opaque
constant without a body, so that no proof can know it. -/

namespace Sys2Proof

/-- `SEQ_CAP` (R5): the most bits the sequence store holds, 29 payload bytes of 8 bits. -/
abbrev Config.seqCap : Nat := 232

/-- `BUF_LEN` (R5, R34): bytes in the packed buffer. -/
abbrev Config.bufLen : Nat := 30

/-- FREE VALUE (log entry 4; R100, R102, D5): the command value of step `i` in run `run` when `AMP = Q` and the
environment's list does not reach `i`. -/
opaque Config.srcQ (run i : Nat) : Rat

/-- FREE VALUE (log entry 4): the same when `AMP = F64`; any 64-bit pattern, since R102 accepts any value. -/
opaque Config.srcF64 (run i : Nat) : BitVec 64

/-- FREE VALUE (log entry 4): the same when `AMP` is another type. -/
opaque Config.srcCustom (run i : Nat) : Nat

/-- FREE VALUE (log entry 7): sign and low fraction bits of the NaN that a binary64 sum of these two patterns gives. -/
opaque Config.f64AddNaN (a b : BitVec 64) : BitVec 64

/-- FREE VALUE (log entry 7): the same for a binary64 difference. -/
opaque Config.f64SubNaN (a b : BitVec 64) : BitVec 64

/-- `amp_add` of an `AMP` that is neither `Q` nor `F64` (R6: "each a function of its operands alone"; 93 U1, U3; log entry 3). -/
opaque Config.ampAdd (a b : Nat) : Nat

/-- `amp_sub` of such an `AMP` (R6; log entry 3). -/
opaque Config.ampSub (a b : Nat) : Nat

/-- `amp_neg` of such an `AMP` (R6; log entry 3). -/
opaque Config.ampNeg (a : Nat) : Nat

/-- Whether a value of such an `AMP`, other than `AMP_ZERO`, is at least zero (R6; log entry 3). -/
opaque Config.ampGe0 (a : Nat) : Bool

/-- Whether a value of such an `AMP`, other than `AMP_ZERO` and at least zero, is greater than zero (R6; log entry 3). -/
opaque Config.ampGt0 (a : Nat) : Bool

end Sys2Proof
end

