-- ==== Sys2Proof/Machine/F64.lean ====
section
/-! DEFINITION. The reference form `F64` of `AMP`: IEEE 754 binary64 on 64-bit patterns, as spec/00_scope.md R6,
30_encoding.md R74 and 40_modulator.md R107, R108, R112, R113 give it.

A finite pattern is read as an integer number of units of 2^-1074, the smallest binary64 step, so a sum is exact before
its one rounding. -/

namespace Sys2Proof.Machine

/-- The sign bit, bit 63 (R74). -/
def f64Sign (b : BitVec 64) : Bool := b.msb

/-- The biased exponent, bits 62:52 (R74). -/
def f64Exp (b : BitVec 64) : Nat := (b.extractLsb 62 52).toNat

/-- The fraction, bits 51:0 (R74). -/
def f64Frac (b : BitVec 64) : Nat := (b.extractLsb 51 0).toNat

/-- A NaN: exponent all ones, fraction not zero. -/
def f64IsNaN (b : BitVec 64) : Bool := f64Exp b == 2047 && f64Frac b != 0

/-- An infinity: exponent all ones, fraction zero. -/
def f64IsInf (b : BitVec 64) : Bool := f64Exp b == 2047 && f64Frac b == 0

/-- A finite value: any other exponent. -/
def f64IsFinite (b : BitVec 64) : Bool := f64Exp b != 2047

/-- The magnitude of a finite pattern in units of 2^-1074. -/
def f64Mag (b : BitVec 64) : Nat :=
  if f64Exp b = 0 then f64Frac b else (2 ^ 52 + f64Frac b) * 2 ^ (f64Exp b - 1)

/-- The value of a finite pattern in units of 2^-1074. -/
def f64Int (b : BitVec 64) : Int :=
  if f64Sign b then -(f64Mag b : Int) else (f64Mag b : Int)

/-- `a` divided by `2 ^ k`, to the nearest integer, a tie to the even one (R6 "round-to-nearest-even"). -/
def roundShift (a k : Nat) : Nat :=
  if 2 ^ k < 2 * (a % 2 ^ k) ∨ (2 ^ k = 2 * (a % 2 ^ k) ∧ (a / 2 ^ k) % 2 = 1) then a / 2 ^ k + 1 else a / 2 ^ k

/-- The exponent and fraction of the binary64 value nearest to `a` units of 2^-1074, as the number in bits 62:0.  The
rounded 53-bit significand is added onto the exponent field, so a carry out of it raises the exponent; a result at or past the
exponent 2047 is the infinity (R113). -/
def f64RoundMag (a : Nat) : Nat :=
  min ((Nat.log2 a - 52) * 2 ^ 52 + roundShift a (Nat.log2 a - 52)) (2047 * 2 ^ 52)

/-- The pattern with this sign and these bits 62:0. -/
def f64Pack (sign : Bool) (mag : Nat) : BitVec 64 :=
  BitVec.ofNat 64 (if sign then 2 ^ 63 + mag else mag)

/-- Sign-flip negation (R6). -/
def f64Neg (b : BitVec 64) : BitVec 64 := b ^^^ 0x8000000000000000#64

/-- A quiet NaN whose sign and other fraction bits are those of `free` (log entry 7). -/
def f64QuietNaN (free : BitVec 64) : BitVec 64 := free ||| 0x7FF8000000000000#64

/-- The sum of two finite patterns, rounded once (R108).  An exact zero is `-0.0` only when both operands are negative. -/
def f64AddFinite (a b : BitVec 64) : BitVec 64 :=
  if f64Int a + f64Int b = 0 then f64Pack (f64Sign a && f64Sign b) 0
  else f64Pack (decide (f64Int a + f64Int b < 0)) (f64RoundMag (f64Int a + f64Int b).natAbs)

/-- The IEEE 754 sum; `nan` is the result where the sum is no number (R112). -/
def f64AddWith (nan a b : BitVec 64) : BitVec 64 :=
  if f64IsNaN a || f64IsNaN b then nan
  else if f64IsInf a then (if f64IsInf b && (f64Sign a != f64Sign b) then nan else a)
  else if f64IsInf b then b
  else f64AddFinite a b

/-- `amp_add` of `F64` (R6). -/
def f64Add (a b : BitVec 64) : BitVec 64 := f64AddWith (f64QuietNaN (Config.f64AddNaN a b)) a b

/-- `amp_sub` of `F64` (R6): the sum with the sign of the second operand flipped. -/
def f64Sub (a b : BitVec 64) : BitVec 64 := f64AddWith (f64QuietNaN (Config.f64SubNaN a b)) a (f64Neg b)

/-- `amp_ge0` of `F64`: false for a NaN (R6); `-0.0` counts as zero (R112). -/
def f64Ge0 (b : BitVec 64) : Bool := !f64IsNaN b && (!f64Sign b || b == 0x8000000000000000#64)

/-- `amp_gt0` of `F64`: false for a NaN and for either zero, true for `+infinity` (R105, D9). -/
def f64Gt0 (b : BitVec 64) : Bool := !f64IsNaN b && !f64Sign b && b != 0#64

end Sys2Proof.Machine
end

