-- ==== Sys2Proof/Machine/Amp.lean ====
section
/-! DEFINITION. The interface of `AMP` (spec/00_scope.md R6): the zero, the six operations and `amp_mul_dec`, for the kind of
`AMP` the block is built with. -/

namespace Sys2Proof

/-- The rational a value of `Q` is; a value of another kind is never on a block built with `Q` (log entry 3). -/
def Amp.toRat : Amp → Rat
  | .rat r => r
  | _ => 0

/-- The pattern a value of `F64` is. -/
def Amp.toBits : Amp → BitVec 64
  | .f64 b => b
  | _ => 0#64

/-- The number a value of another `AMP` is known by. -/
def Amp.toCode : Amp → Nat
  | .code n => n
  | _ => 0

/-- Is `v` a value of this `AMP`? -/
def AmpKind.has : AmpKind → Amp → Bool
  | .q, .rat _ => true
  | .f64, .f64 _ => true
  | .custom, .code _ => true
  | _, _ => false

/-- `AMP_ZERO` (R6). -/
def AmpKind.zero : AmpKind → Amp
  | .q => .rat 0
  | .f64 => .f64 0#64
  | .custom => .code 0

/-- `amp_add` (R6). -/
def AmpKind.add : AmpKind → Amp → Amp → Amp
  | .q, a, b => .rat (a.toRat + b.toRat)
  | .f64, a, b => .f64 (Machine.f64Add a.toBits b.toBits)
  | .custom, a, b => .code (Config.ampAdd a.toCode b.toCode)

/-- `amp_sub` (R6). -/
def AmpKind.sub : AmpKind → Amp → Amp → Amp
  | .q, a, b => .rat (a.toRat - b.toRat)
  | .f64, a, b => .f64 (Machine.f64Sub a.toBits b.toBits)
  | .custom, a, b => .code (Config.ampSub a.toCode b.toCode)

/-- `amp_neg` (R6). -/
def AmpKind.neg : AmpKind → Amp → Amp
  | .q, a => .rat (-a.toRat)
  | .f64, a => .f64 (Machine.f64Neg a.toBits)
  | .custom, a => .code (Config.ampNeg a.toCode)

/-- `amp_ge0` (R6): true exactly when the value is at least zero, so true of `AMP_ZERO` whatever the type. -/
def AmpKind.ge0 : AmpKind → Amp → Bool
  | .q, a => decide (0 ≤ a.toRat)
  | .f64, a => Machine.f64Ge0 a.toBits
  | .custom, a => a.toCode == 0 || Config.ampGe0 a.toCode

/-- `amp_gt0` (R6): true exactly when the value is greater than zero, so false of `AMP_ZERO` and of every value that is not at
least zero, whatever the type. -/
def AmpKind.gt0 : AmpKind → Amp → Bool
  | .q, a => decide (0 < a.toRat)
  | .f64, a => Machine.f64Gt0 a.toBits
  | .custom, a => a.toCode != 0 && Config.ampGe0 a.toCode && Config.ampGt0 a.toCode

/-- `amp_mul_dec(a, d)` (R6): `a` for the decision +1, `amp_neg(a)` for -1. -/
def AmpKind.mulDec (k : AmpKind) (a : Amp) (d : Bit) : Amp := if d then a else k.neg a

end Sys2Proof
end

