-- ==== Sys2Proof/Syntax.lean ====
section
/-! DEFINITION. The command port and the nine commands (spec/30_encoding.md R70 to R76). -/

namespace Sys2Proof

/-- One presentation of the four input ports, sampled together (R70). -/
structure Ports where
  /-- The opcode port, 4 bits (R70, R71). -/
  op : BitVec 4
  /-- `arg_n`, 16 bits, unsigned (R73). -/
  argN : BitVec 16
  /-- `arg_amp`, one `AMP` value (R74). -/
  argAmp : Amp
  /-- `arg_bit` (R75). -/
  argBit : Bit
deriving DecidableEq, Repr

/-- The nine commands of spec/opcode_table.json, each with the operand ports R72 says it uses. -/
inductive Instr where
  /-- NOP, op 0x0 (R170). -/
  | nop
  /-- RUN, op 0x1 (R171): `arg_n`, `arg_amp`. -/
  | run (n : BitVec 16) (a : Amp)
  /-- MINIT, op 0x4 (R104): `arg_amp`. -/
  | minit (a : Amp)
  /-- MADV, op 0x5 (R106). -/
  | madv
  /-- CAPT, op 0x6 (R124). -/
  | capt
  /-- SCLR, op 0x8 (R121). -/
  | sclr
  /-- SPUSH, op 0x9 (R122): `arg_bit`. -/
  | spush (b : Bit)
  /-- ROT, op 0xA (R135). -/
  | rot
  /-- PACK, op 0xC (R150). -/
  | pack
deriving DecidableEq, Repr

end Sys2Proof
end

