-- ==== Sys2Proof/WellFormed.lean ====
section
/-! DEFINITION. Which commands a host can present to a block built with a given `AMP`: the operand `arg_amp` carries one value
of that type (spec/30_encoding.md R70, R74).  The widths of the other operands are in their types. -/

namespace Sys2Proof

/-- The operand of MINIT and of RUN is a value of the block's `AMP` (R74); no other command reads `arg_amp` (R76). -/
def Instr.wf (k : AmpKind) : Instr → Bool
  | .nop => true
  | .run _ a => k.has a
  | .minit a => k.has a
  | .madv => true
  | .capt => true
  | .sclr => true
  | .spush _ => true
  | .rot => true
  | .pack => true

end Sys2Proof
end

