-- ==== Sys2Proof/Decode.lean ====
section
/-! DEFINITION. The decoder, total on the 16 values of `op` (spec/30_encoding.md R71, R72, R77), and the encoder. -/

namespace Sys2Proof

/-- Why the decoder refuses a presentation. -/
inductive DecodeError where
  /-- `op` is one of the seven reserved values (R77). -/
  | reservedOp (op : BitVec 4)
deriving DecidableEq, Repr

/-- The field `unit`, bits 3:2 of `op` (R71). -/
def opUnit (op : BitVec 4) : BitVec 2 := op.extractLsb' 2 2

/-- The field `fn`, bits 1:0 of `op` (R71). -/
def opFn (op : BitVec 4) : BitVec 2 := op.extractLsb' 0 2

/-- The decoder (R72): it matches all four bits of `op`, takes the operands the command uses and looks at no other port (R76). -/
def decode (p : Ports) : Except DecodeError Instr :=
  match p.op.toNat with
  | 0x0 => .ok .nop
  | 0x1 => .ok (.run p.argN p.argAmp)
  | 0x4 => .ok (.minit p.argAmp)
  | 0x5 => .ok .madv
  | 0x6 => .ok .capt
  | 0x8 => .ok .sclr
  | 0x9 => .ok (.spush p.argBit)
  | 0xA => .ok .rot
  | 0xC => .ok .pack
  | _ => .error (.reservedOp p.op)

/-- The `op` value of a command (R72), put together from its unit and function fields (R71). -/
def Instr.opcode : Instr → BitVec 4
  | .nop => 0b00#2 ++ 0b00#2
  | .run _ _ => 0b00#2 ++ 0b01#2
  | .minit _ => 0b01#2 ++ 0b00#2
  | .madv => 0b01#2 ++ 0b01#2
  | .capt => 0b01#2 ++ 0b10#2
  | .sclr => 0b10#2 ++ 0b00#2
  | .spush _ => 0b10#2 ++ 0b01#2
  | .rot => 0b10#2 ++ 0b10#2
  | .pack => 0b11#2 ++ 0b00#2

/-- What a command puts on `arg_n`; a port it does not use is 0. -/
def Instr.portN : Instr → BitVec 16
  | .run n _ => n
  | _ => 0#16

/-- What a command puts on `arg_amp`; a port it does not use is `AMP_ZERO`. -/
def Instr.portAmp (k : AmpKind) : Instr → Amp
  | .run _ a => a
  | .minit a => a
  | _ => k.zero

/-- What a command puts on `arg_bit`; a port it does not use is 0. -/
def Instr.portBit : Instr → Bit
  | .spush b => b
  | _ => false

/-- The encoder: the four ports that present a command (R70, R85). -/
def encode (k : AmpKind) (i : Instr) : Ports :=
  { op := i.opcode, argN := i.portN, argAmp := i.portAmp k, argBit := i.portBit }

/-- The ports whose opcode bits are the low four bits of `w` and whose operand ports are all zero.  The opcode table numbers
bits 3:0 of `op` and nothing else (R71: the operand ports "carry no opcode bits"). -/
def portsOfWord (zero : Amp) (nbits w : Nat) : Ports :=
  { op := BitVec.ofNat 4 (w % 2 ^ nbits), argN := 0#16, argAmp := zero, argBit := false }

/-- The command the decoder reads from an opcode-table word, every operand port zero. -/
def decodeTableWord (nbits w : Nat) : Option Instr :=
  match decode (portsOfWord (AmpKind.zero .q) nbits w) with
  | .ok i => some i
  | .error _ => none

end Sys2Proof
end

