-- ==== Sys2Proof/Machine/State.lean ====
section
/-! DEFINITION. The state of the block (spec/10_state.md section 1) and the model's own record of its inputs and outputs, the
reasons a step may stop, and the state after reset (R38). -/

namespace Sys2Proof.Machine

/-- The value of `STATUS.ERR`, by name (spec/60_exceptions.md R191); code 7 is never written and has no name (93 U8). -/
inductive ErrCode where
  /-- Code 0: no fault since reset. -/
  | none
  /-- Code 1 (R192). -/
  | rotationError
  /-- Code 2 (R193). -/
  | bufferOverflow
  /-- Code 3 (R194). -/
  | lengthError
  /-- Code 4 (R200). -/
  | paramError
  /-- Code 5 (R201). -/
  | notInitialised
  /-- Code 6 (R195). -/
  | illegalCommand
deriving DecidableEq, Repr

/-- One Sample `(c, f, d)` (R81): the command value, the accumulator the quantizer compared against, the decision bit. -/
structure Sample where
  c : Amp
  f : Amp
  d : Bit
deriving DecidableEq, Repr

/-- One thing the outside can do to the block between two states (R11, R220). -/
inductive Input where
  /-- The host presents the four ports (R70). -/
  | command (p : Ports)
  /-- The reset input (R220); `src` are the first command values of the Signal Source in the run that begins. -/
  | reset (src : List Amp)
deriving DecidableEq, Repr

/-- The two arguments the spec leaves OPEN (R5), as plain data.  No command changes them. -/
structure Env where
  /-- The numeric type the block is built with (R6); nothing changes it. -/
  amp : AmpKind
  /-- `SRC(0), SRC(1), ...` as far as the list goes (R100); beyond it the values are free. -/
  src : List Amp
  /-- How many resets came before: the free values of `SRC` are those of this run. -/
  run : Nat
deriving DecidableEq, Repr

/-- The memory `BUF` (R33, R50): its written bytes, addresses strictly rising; an unlisted address holds no byte (R33, 93 U4). -/
abbrev Memory := List Host.Cell

/-- The state: nine pieces the spec names (10_state section 1), `SLEN` being the length of `seq` (R30), then the model's own
record of inputs and outputs. -/
structure State where
  /-- `FB` (R20). -/
  fb : Amp
  /-- `SLOPE` (R21); it holds a value of the host's only while `mrdy` (log entry 1). -/
  slope : Amp
  /-- `IDX` (R24), unbounded. -/
  idx : Nat
  /-- `SEQ[0..SLEN-1]` (R30). -/
  seq : List Bit
  /-- `BUF` (R33). -/
  buf : Memory
  /-- `STATUS.ERR` (R26). -/
  err : ErrCode
  /-- `STATUS.MRDY` (R27). -/
  mrdy : Bool
  /-- `STATUS.BVALID` (R28). -/
  bvalid : Bool
  /-- The model's own: `AMP` and `SRC` (log entries 3, 4). -/
  env : Env
  /-- The model's own: what the host and the reset input will present, first first (log entry 5). -/
  inputs : List Input
  /-- The model's own: the Samples emitted so far, first first (R36, R81; log entry 6). -/
  samples : List Sample
deriving DecidableEq, Repr

/-- Why reading a byte of `BUF` gives none.  Only a read of `BUF` from outside raises these (`State.readBuf`): no step of the
block does, since a fault of the block is a next state (R196).  Both are safe. -/
inductive Fault where
  /-- Raised by `State.readBuf` for an address outside 0 to 29, which R50 says does not exist.  Safe. -/
  | noSuchAddress (a : Nat)
  /-- Raised by `State.readBuf` for a byte no PACK has written since reset: R33 leaves it unspecified, 93 U4 lets a model hold
  it as absent and fault the read.  Safe. -/
  | notYetWritten (a : Nat)
deriving DecidableEq, Repr

/-- Why a step has no meaning. -/
inductive Refusal where
  /-- Raised by an arm of `exec` whose instruction has no meaning; no arm does.  Safe. -/
  | notModelled (mnemonic : String)
deriving DecidableEq, Repr

/-- The state right after reset (R38): `FB = AMP_ZERO`, `IDX = 0`, the store empty, `BUF` absent, `STATUS = 0x00`.  `SLOPE`
(log entry 1), `env` (log entries 3, 4), `inputs` (log entry 5) and `samples` (log entry 6) are DESIGN CHOICES. -/
def State.reset : State where
  fb := .rat 0
  slope := .rat 0
  idx := 0
  seq := []
  buf := []
  err := .none
  mrdy := false
  bvalid := false
  env := { amp := .q, src := [], run := 0 }
  inputs := []
  samples := []

end Sys2Proof.Machine
end

