-- ==== Sys2Proof/Machine/Ops.lean ====
section
/-! DEFINITION. The named operations over the state: the memory `BUF`, the store `SEQ`, raising a fault, the halted test,
reset. -/

namespace Sys2Proof.Machine

/-- The canonical form of `BUF`: addresses strictly rising and all of them in 0 to 29 (R50).  An unlisted address holds no
byte, so no listed entry can equal what an unlisted one reads as. -/
abbrev Memory.wf (m : Memory) : Prop :=
  m.Pairwise (fun x y => x.1 < y.1) ∧ ∀ c ∈ m, c.1 < Config.bufLen

/-- The byte at address `a`, if one has been written. -/
def memRead (m : Memory) (a : Nat) : Option Byte :=
  match m with
  | [] => none
  | c :: rest => if c.1 = a then some c.2 else memRead rest a

/-- `MemWrite(a, 1, v)` (R9): the byte at `a` becomes `v`, every other byte stays; the list stays sorted. -/
def memWrite (m : Memory) (a : Nat) (v : Byte) : Memory :=
  match m with
  | [] => [(a, v)]
  | c :: rest =>
    if a < c.1 then (a, v) :: c :: rest
    else if a = c.1 then (a, v) :: rest
    else c :: memWrite rest a v

/-- The bytes `vs` written at `a`, `a + 1`, and so on. -/
def memWriteAll (m : Memory) (a : Nat) (vs : List Byte) : Memory :=
  match vs with
  | [] => m
  | v :: rest => memWriteAll (memWrite m a v) (a + 1) rest

/-- The `n` bytes from address `a` up, if all have been written. -/
def memReadRange (m : Memory) (a n : Nat) : Option (List Byte) :=
  match n with
  | 0 => some []
  | n + 1 =>
    match memRead m a, memReadRange m (a + 1) n with
    | some v, some vs => some (v :: vs)
    | _, _ => none

/-- `MemRead(a, 1)` (R9, R50) as seen from outside the block: defined for addresses 0 to 29 only. -/
def State.readBuf (s : State) (a : Nat) : Except Fault Byte :=
  if a < Config.bufLen then
    match memRead s.buf a with
    | some v => .ok v
    | none => .error (.notYetWritten a)
  else .error (.noSuchAddress a)

/-- `SLEN` (R30): the length of the store. -/
def State.slen (s : State) : Nat := s.seq.length

/-- Halted (R197): a fault has been recorded since reset. -/
def State.halted (s : State) : Bool := s.err != .none

/-- `raise Fault(code)` (R196), the one way a fault is taken: `STATUS.ERR <- code`, and nothing else changes. -/
def raise (code : ErrCode) (s : State) : State := { s with err := code }

/-- Every command has its effect only while the block is not halted (R197). -/
def unlessHalted (s : State) (effect : State → State) : State := if s.halted then s else effect s

/-- A fresh modulator (R104): `SLOPE`, `FB`, `IDX`, `MRDY`. -/
def newModulator (a : Amp) (s : State) : State :=
  { s with slope := a, fb := s.env.amp.zero, idx := 0, mrdy := true }

/-- The end of one modulator step (R106): emit the Sample, update `FB`, advance `IDX`. -/
def advance (smp : Sample) (fb : Amp) (s : State) : State :=
  { s with fb := fb, idx := s.idx + 1, samples := s.samples ++ [smp] }

/-- The store's content replaced (R121, R135). -/
def storeSeq (q : List Bit) (s : State) : State := { s with seq := q }

/-- `SEQ[SLEN] <- b; SLEN <- SLEN + 1` (R122, R124). -/
def appendBit (b : Bit) (s : State) : State := { s with seq := s.seq ++ [b] }

/-- `BUF[0..29] <- bytes; STATUS.BVALID <- 1` (R150). -/
def storeBuf (bytes : List Byte) (s : State) : State :=
  { s with buf := memWriteAll s.buf 0 bytes, bvalid := true }

/-- The inputs left after the one this step takes. -/
def setInputs (rest : List Input) (s : State) : State := { s with inputs := rest }

/-- A reserved `op` (R77, R195): IllegalCommand, unless halted. -/
def illegalCommand (s : State) : State := unlessHalted s (raise .illegalCommand)

/-- The reset input (R220): every piece of the block's state at its value of R38, in any state, halted or not.  A new run
begins, over the source values `src` (R12: "A run begins at reset"); the inputs still to come and the Samples already emitted are
not state of the block and stay. -/
def applyReset (src : List Amp) (s : State) : State :=
  { fb := s.env.amp.zero, slope := s.env.amp.zero, idx := 0, seq := [], buf := []
    err := .none, mrdy := false, bvalid := false
    env := { amp := s.env.amp, src := src, run := s.env.run + 1 }
    inputs := s.inputs, samples := s.samples }

end Sys2Proof.Machine
end

