-- ==== Sys2Proof/Machine/Packer.lean ====
section
/-! DEFINITION. The Bit Packer unit: `PACKBITS`, its inverse, and PACK (spec/43_bit_packer.md, spec/20_memory.md R52 to R54). -/

namespace Sys2Proof.Machine

/-- `b << p` (R7). -/
def bitAt (b : Bit) (p : Nat) : Byte := if b then 1#8 <<< p else 0#8

/-- `last`, the highest payload byte that receives a bit of `L` (R154). -/
def lastIndex (L : Nat) : Nat := 1 + (L - 1) / 8

/-- The `k`-th consumed bit (R153): the last bit of the sequence first. -/
def consumedBit (s : List Bit) (k : Nat) : Bit := s.getD (s.length - 1 - k) false

/-- One turn of the loop of R151: consumed bit `k` goes to bit `k mod 8` of byte `1 + k div 8`. -/
def placeBit (s : List Bit) (buf : List Byte) (k : Nat) : List Byte :=
  buf.modify (1 + k / 8) (· ||| bitAt (consumedBit s k) (k % 8))

/-- The buffer before the loop (R152): thirty zero bytes, byte 0 the length. -/
def packHeader (L : Nat) : List Byte := (List.replicate Config.bufLen 0#8).set 0 (BitVec.ofNat 8 L)

/-- The buffer after `n` turns of the loop (R151). -/
def packPayload (s : List Bit) (n : Nat) : List Byte :=
  (List.range n).foldl (placeBit s) (packHeader s.length)

/-- The last line of R151 (R155): byte 29 becomes a copy of the last written byte. -/
def copyLast (L : Nat) (buf : List Byte) : List Byte := buf.set 29 (buf.getD (lastIndex L) 0#8)

/-- `PACKBITS(s)` for `1 <= len(s) <= 232` (R151). -/
def packBits (s : List Bit) : List Byte := copyLast s.length (packPayload s s.length)

/-- The sequence a packed buffer holds (R161): `L = buf[0]`, `s[j]` bit `(L-1-j) mod 8` of byte `1 + (L-1-j) div 8`. -/
def unpackBits (buf : List Byte) : List Bit :=
  let L := (buf.getD 0 0#8).toNat
  (List.range L).map fun j => (buf.getD (1 + (L - 1 - j) / 8) 0#8).getLsbD ((L - 1 - j) % 8)

/-- A sequence read as a binary numeral, its first bit the most significant (R54). -/
def numeral (s : List Bit) : Nat := s.foldl (fun v b => 2 * v + b.toNat) 0

/-- Bytes read as one unsigned integer, the first byte the least significant (R54). -/
def littleEndian (bytes : List Byte) : Nat := bytes.foldr (fun b v => b.toNat + 256 * v) 0

/-- PACK as a change of state (R150, R156, R159). -/
def cmdPack (s : State) : State :=
  unlessHalted s fun s =>
    if s.slen = 0 then raise .lengthError s
    else if Config.seqCap < s.slen then raise .bufferOverflow s
    else storeBuf (packBits s.seq) s

/-- PACK (R150). -/
def execPack (s : State) : Host.Outcome State Fault Refusal := .next (cmdPack s)

end Sys2Proof.Machine
end

