-- ==== Sys2Proof/Machine/Rotator.lean ====
section
/-! DEFINITION. The Bit Rotator unit: `ROTATE` and ROT (spec/42_bit_rotator.md). -/

namespace Sys2Proof.Machine

/-- The scan of case 2 (R137): the smallest `i` from 1 to `N - 1` with `b[i-1] = b[i]`. -/
def firstPair (b : List Bit) : Option Nat :=
  (List.range' 1 (b.length - 1)).find? fun i => b[i - 1]? == b[i]?

/-- `ROTATE(b)` for `len(b) >= 2` (R137): equal ends drop the last bit; else the result runs from the second bit of the first
equal pair to the end, wraps, and stops before the first bit of the pair; else failure. -/
def rotate (b : List Bit) : Option (List Bit) :=
  if b.head? = b.getLast? then some b.dropLast
  else
    match firstPair b with
    | some i => some (b.drop i ++ b.take (i - 1))
    | none => none

/-- How many places around the circle have unequal neighbours, the last bit being followed by the first (R142). -/
def circularChanges (b : List Bit) : Nat :=
  (List.range b.length).countP fun j => b[j]? != b[(j + 1) % b.length]?

/-- ROT as a change of state (R135, R136, R141). -/
def cmdRot (s : State) : State :=
  unlessHalted s fun s =>
    if s.slen < 2 then raise .lengthError s
    else
      match rotate s.seq with
      | none => raise .rotationError s
      | some r => storeSeq r s

/-- ROT (R135). -/
def execRot (s : State) : Host.Outcome State Fault Refusal := .next (cmdRot s)

end Sys2Proof.Machine
end

