-- ==== Sys2Proof/Machine/Operands.lean ====
section
/-! DEFINITION. The operand ports as the commands read them (spec/30_encoding.md R73 to R75), the signal-source port
(R84, R100, R103), and the operand checks of MINIT and RUN (R105, R172). -/

namespace Sys2Proof.Machine

/-- `arg_n` as the natural number 0 to 65535 it stands for (R73). -/
def sampleCount (n : BitVec 16) : Nat := n.toNat

/-- A command value the environment's list does not give: free, but always a value of the block's `AMP` (log entry 4). -/
def freeCommand (k : AmpKind) (run i : Nat) : Amp :=
  match k with
  | .q => .rat (Config.srcQ run i)
  | .f64 => .f64 (Config.srcF64 run i)
  | .custom => .code (Config.srcCustom run i)

/-- `SRC(i)` (R84, R100): the command value of step `i`, a function of the index alone within a run. -/
def command (e : Env) (i : Nat) : Amp :=
  match e.src[i]? with
  | some c => c
  | none => freeCommand e.amp e.run i

/-- The output `src_idx`, which always shows `IDX` (R84). -/
def State.srcIdx (s : State) : Nat := s.idx

/-- The feedback step must be positive (R105): the fault MINIT raises on this operand, if any. -/
def slopeFault (k : AmpKind) (a : Amp) : Option ErrCode :=
  if k.gt0 a then none else some .paramError

/-- The operand checks of RUN in their order (R172, R202): the fault, if any. -/
def runOperandFault (k : AmpKind) (n : BitVec 16) (a : Amp) : Option ErrCode :=
  if sampleCount n < 2 then some .lengthError
  else if Config.seqCap < sampleCount n then some .bufferOverflow
  else slopeFault k a

end Sys2Proof.Machine
end

