-- ==== Sys2Proof/Machine/Modulator.lean ====
section
/-! DEFINITION. The Delta-Sigma Modulator unit: the quantizer, the modulator step, MINIT and MADV (spec/40_modulator.md). -/

namespace Sys2Proof.Machine

/-- The quantizer (R107): +1 exactly when the computed difference is at least zero; a tie gives +1. -/
def quantize (k : AmpKind) (c fb : Amp) : Bit := k.ge0 (k.sub c fb)

/-- The command value of the step the state is about to take: `SRC(IDX)` (R100, R109). -/
def State.commandValue (s : State) : Amp := command s.env s.idx

/-- The decision of the step the state is about to take (R107). -/
def State.decision (s : State) : Bit := quantize s.env.amp s.commandValue s.fb

/-- The Sample of the step the state is about to take (R81): it carries `FB` before the update. -/
def State.nextSample (s : State) : Sample := ⟨s.commandValue, s.fb, s.decision⟩

/-- `FB` after the step the state is about to take (R108). -/
def State.nextFb (s : State) : Amp := s.env.amp.add s.fb (s.env.amp.mulDec s.slope s.decision)

/-- One modulator step (R106 to R109), the six middle lines of MADV and of CAPT. -/
def modStep (s : State) : State := advance s.nextSample s.nextFb s

/-- MINIT as a change of state (R104, R105). -/
def cmdMinit (a : Amp) (s : State) : State :=
  unlessHalted s fun s =>
    match slopeFault s.env.amp a with
    | some code => raise code s
    | none => newModulator a s

/-- MADV as a change of state (R106). -/
def cmdMadv (s : State) : State :=
  unlessHalted s fun s => if s.mrdy then modStep s else raise .notInitialised s

/-- MINIT (R104). -/
def execMinit (a : Amp) (s : State) : Host.Outcome State Fault Refusal := .next (cmdMinit a s)

/-- MADV (R106). -/
def execMadv (s : State) : Host.Outcome State Fault Refusal := .next (cmdMadv s)

end Sys2Proof.Machine
end

