-- ==== Sys2Proof/Machine/Sequence.lean ====
section
/-! DEFINITION. The sequence store and the capture glue: SCLR, SPUSH, CAPT (spec/41_sequence_capture.md). -/

namespace Sys2Proof.Machine

/-- SCLR as a change of state (R121). -/
def cmdSclr (s : State) : State := unlessHalted s (storeSeq [])

/-- SPUSH as a change of state (R122, R126). -/
def cmdSpush (b : Bit) (s : State) : State :=
  unlessHalted s fun s =>
    if s.slen = Config.seqCap then raise .bufferOverflow s else appendBit b s

/-- CAPT as a change of state (R124): the tests in their order (R125, R202), then the modulator step, then the decision bit
appended (R127). -/
def cmdCapt (s : State) : State :=
  unlessHalted s fun s =>
    if !s.mrdy then raise .notInitialised s
    else if s.slen = Config.seqCap then raise .bufferOverflow s
    else appendBit s.decision (modStep s)

/-- SCLR (R121). -/
def execSclr (s : State) : Host.Outcome State Fault Refusal := .next (cmdSclr s)

/-- SPUSH (R122). -/
def execSpush (b : Bit) (s : State) : Host.Outcome State Fault Refusal := .next (cmdSpush b s)

/-- CAPT (R124). -/
def execCapt (s : State) : Host.Outcome State Fault Refusal := .next (cmdCapt s)

end Sys2Proof.Machine
end

