-- ==== Sys2Proof/Machine/TopLevel.lean ====
section
/-! DEFINITION. The top level: NOP and RUN (spec/44_pipeline_run.md R170 to R176). -/

namespace Sys2Proof.Machine

/-- CAPT, `n` times over. -/
def captTimes : Nat → State → State
  | 0, s => s
  | n + 1, s => captTimes n (cmdCapt s)

/-- The sub-steps of RUN before its ROT (R171): MINIT, SCLR, `n` CAPTs. -/
def runCapture (n : Nat) (a : Amp) (s : State) : State := captTimes n (cmdSclr (cmdMinit a s))

/-- RUN as a change of state (R171): the operand checks before anything changes (R172), then the sub-steps in their one order
(R173).  A sub-step that faults halts the block, so the ones after it have no effect (R174). -/
def cmdRun (n : BitVec 16) (a : Amp) (s : State) : State :=
  unlessHalted s fun s =>
    match runOperandFault s.env.amp n a with
    | some code => raise code s
    | none => cmdPack (cmdRot (runCapture (sampleCount n) a s))

/-- NOP (R170): no effect in any state. -/
def execNop (s : State) : Host.Outcome State Fault Refusal := .next s

/-- RUN (R171). -/
def execRun (n : BitVec 16) (a : Amp) (s : State) : Host.Outcome State Fault Refusal := .next (cmdRun n a s)

end Sys2Proof.Machine
end

