-- ==== Sys2Proof/Machine/Dispatch.lean ====
section
/-! DEFINITION. Which meaning each command has: one arm per constructor of `Instr`. -/

namespace Sys2Proof.Machine

def exec (i : Instr) (s : State) : Host.Outcome State Fault Refusal :=
  match i with
  | .nop => Sys2Proof.Machine.execNop s
  | .run n a => Sys2Proof.Machine.execRun n a s
  | .minit a => Sys2Proof.Machine.execMinit a s
  | .madv => Sys2Proof.Machine.execMadv s
  | .capt => Sys2Proof.Machine.execCapt s
  | .sclr => Sys2Proof.Machine.execSclr s
  | .spush b => Sys2Proof.Machine.execSpush b s
  | .rot => Sys2Proof.Machine.execRot s
  | .pack => Sys2Proof.Machine.execPack s

end Sys2Proof.Machine
end

