-- ==== Sys2Proof/Machine/Flags.lean ====
section
/-! DEFINITION. The register `STATUS` as it is read (spec/10_state.md R25), the fault codes (spec/60_exceptions.md R191), the
8-bit register `SLEN` (R5), and what can be observed of the block (R12, R181). -/

namespace Sys2Proof.Machine

/-- The 3-bit code of a fault (R191). -/
def ErrCode.code : ErrCode → BitVec 3
  | .none => 0
  | .rotationError => 1
  | .bufferOverflow => 2
  | .lengthError => 3
  | .paramError => 4
  | .notInitialised => 5
  | .illegalCommand => 6

/-- `STATUS` (R25): bits 7:6 are 0, bit 5 is `BVALID`, bit 4 is `MRDY`, bit 3 is 0, bits 2:0 are `ERR`. -/
def State.status (s : State) : Byte :=
  0#2 ++ BitVec.ofBool s.bvalid ++ BitVec.ofBool s.mrdy ++ 0#1 ++ s.err.code

/-- `SLEN` as the 8-bit register it is (`SLEN_W` of R5). -/
def State.slenReg (s : State) : Byte := BitVec.ofNat 8 s.slen

/-- May the transport take `BUF` (R181)? -/
def State.mayTake (s : State) : Bool := s.bvalid && !s.halted

/-- The frame the transport takes (R56, R181, R183): all 30 bytes from this one state, `BUF[0]` first. -/
def State.frame (s : State) : Option (List Byte) :=
  if s.mayTake then memReadRange s.buf 0 Config.bufLen else none

/-- What can be observed of the block (R12). -/
structure Observation where
  status : Byte
  slen : Nat
  seq : List Bit
  idx : Nat
  /-- The 30 bytes of `BUF` when `STATUS.BVALID = 1`. -/
  buf : Option (List Byte)
  samples : List Sample
deriving DecidableEq, Repr

/-- The observation of a state (R12); observing changes nothing (R59). -/
def State.observe (s : State) : Observation where
  status := s.status
  slen := s.slen
  seq := s.seq
  idx := s.idx
  buf := if s.bvalid then memReadRange s.buf 0 Config.bufLen else none
  samples := s.samples

end Sys2Proof.Machine
end

