-- ==== Sys2Proof/Machine/Step.lean ====
section
/-! DEFINITION. One step of the machine: it takes the next input (a command on the port or a reset) and, with none, idles. -/

namespace Sys2Proof.Machine

/-- One step.  A presented command is decoded and executed as one indivisible step (R58, R70); a reserved `op` raises
IllegalCommand unless halted (R77); a reset is a step of its own (R220); with nothing presented the block waits (R222). -/
def step (s : State) : Host.Outcome State Fault Refusal :=
  match s.inputs with
  | [] => .next s
  | .reset src :: rest => .next (applyReset src (setInputs rest s))
  | .command p :: rest =>
    match decode p with
    | .ok i => exec i (setInputs rest s)
    | .error _ => .next (illegalCommand (setInputs rest s))

/-- `s` with the command of an opcode-table word presented next, its operand ports zero: the block fetches nothing from memory
(R23, R62), so this is one more presentation on the command port, before those still to come. -/
def State.withFetchWord (s : State) (nbits w : Nat) : State :=
  setInputs (.command (portsOfWord s.env.amp.zero nbits w) :: s.inputs) s

end Sys2Proof.Machine
end

