-- ==== Sys2Proof/Safety.lean ====
section
/-! DEFINITION. What claims speak of: how a run ends (spec/00_scope.md R12), and the invariants of the reachable states
(spec/10_state.md R21, R28, R31, R39, R40). -/

namespace Sys2Proof

/-- The run has been aborted (R12, R197): a halted state is not the end of a successful run. -/
def Aborted (s : Machine.State) : Prop := s.err ≠ .none

/-- The run can end in success here (R12): the transport may take the frame (R181). -/
def Deliverable (s : Machine.State) : Prop := s.bvalid = true ∧ s.err = .none

/-- The store holds at most 232 bits (R31). -/
def StoreBounded (s : Machine.State) : Prop := s.seq.length ≤ 232

/-- Whenever `MRDY = 1`, the feedback step is positive (R21). -/
def SlopePositive (s : Machine.State) : Prop := s.mrdy = true → s.env.amp.gt0 s.slope = true

/-- These are the thirty bytes `BUF` holds. -/
def BufHolds (m : Machine.Memory) (bytes : List Byte) : Prop :=
  bytes.length = 30 ∧ Machine.memReadRange m 0 30 = some bytes

/-- Whenever `BVALID = 1`, `BUF` is the packing of some sequence of 1 to 232 bits (R28). -/
def FrameValid (s : Machine.State) : Prop :=
  s.bvalid = true →
    ∃ q : List Bit, 1 ≤ q.length ∧ q.length ≤ 232 ∧ BufHolds s.buf (Machine.packBits q)

/-- An input the outside can present to a block built with this `AMP`: its operand port, or its source values, are values of it
(R70, R74, R100). -/
def InputTyped (k : AmpKind) : Machine.Input → Prop
  | .command p => k.has p.argAmp = true
  | .reset src => ∀ c ∈ src, k.has c = true

/-- Every `AMP` value in the state is a value of the block's `AMP` (R5, R6). -/
def AmpTyped (s : Machine.State) : Prop :=
  s.env.amp.has s.fb = true ∧ s.env.amp.has s.slope = true ∧ (∀ c ∈ s.env.src, s.env.amp.has c = true) ∧
    (∀ x ∈ s.inputs, InputTyped s.env.amp x) ∧
      ∀ p ∈ s.samples, s.env.amp.has p.c = true ∧ s.env.amp.has p.f = true

/-- The invariant of the reachable states. -/
structure BlockInv (s : Machine.State) : Prop where
  storeBounded : StoreBounded s
  bufCanonical : Machine.Memory.wf s.buf
  slopePositive : SlopePositive s
  frameValid : FrameValid s
  ampTyped : AmpTyped s

/-- The Samples of the current modulator: the last `IDX` ones. -/
def currentSamples (s : Machine.State) : List Machine.Sample := s.samples.drop (s.samples.length - s.idx)

/-- How many of these Samples carry this decision. -/
def countDecisions (d : Bit) (l : List Machine.Sample) : Nat := l.countP (fun p => p.d == d)

/-- R39: on a block built with `Q`, the current modulator has emitted `IDX` Samples, and `FB = (p - m) * SLOPE`, where `p` and
`m` count its decisions +1 and -1. -/
def FeedbackIsMultiple (s : Machine.State) : Prop :=
  s.env.amp = .q →
    s.idx ≤ s.samples.length ∧
      s.fb.toRat =
        ((countDecisions true (currentSamples s) : Rat) - (countDecisions false (currentSamples s) : Rat)) * s.slope.toRat

/-- The indices at which a command may ask for `SRC` (R103): the current one for MADV and CAPT, those below `arg_n` for RUN. -/
def Consults (i : Instr) (s : Machine.State) (j : Nat) : Prop :=
  match i with
  | .madv => j = s.idx
  | .capt => j = s.idx
  | .run n _ => j < n.toNat
  | _ => False

/-- R40's premise, for one command: every command value it asks for lies in `[-A, A]`. -/
def SourceWithin (A : Rat) (i : Instr) (s : Machine.State) : Prop :=
  ∀ j, Consults i s j → -A ≤ (Machine.command s.env j).toRat ∧ (Machine.command s.env j).toRat ≤ A

/-- R40's conclusion: `FB` lies in `[-A - SLOPE, A + SLOPE]`. -/
def FeedbackWithin (A : Rat) (s : Machine.State) : Prop :=
  -A - s.slope.toRat ≤ s.fb.toRat ∧ s.fb.toRat ≤ A + s.slope.toRat

/-- `FB` at the start of step `j` of a modulator built with step `a` over the source of `e` (R104, R108). -/
def fbAt (e : Machine.Env) (a : Amp) : Nat → Amp
  | 0 => e.amp.zero
  | j + 1 => e.amp.add (fbAt e a j) (e.amp.mulDec a (Machine.quantize e.amp (Machine.command e j) (fbAt e a j)))

/-- The decision of step `j` of that modulator (R107). -/
def decisionAt (e : Machine.Env) (a : Amp) (j : Nat) : Bit :=
  Machine.quantize e.amp (Machine.command e j) (fbAt e a j)

/-- The Sample of step `j` of that modulator (R81). -/
def sampleAt (e : Machine.Env) (a : Amp) (j : Nat) : Machine.Sample :=
  ⟨Machine.command e j, fbAt e a j, decisionAt e a j⟩

/-- Its first `n` decision bits, in step order (R128). -/
def firstBits (e : Machine.Env) (a : Amp) (n : Nat) : List Bit := (List.range n).map (decisionAt e a)

/-- Its first `n` Samples, in step order (R81). -/
def firstSamples (e : Machine.Env) (a : Amp) (n : Nat) : List Machine.Sample := (List.range n).map (sampleAt e a)

/-- A command as the host presents it: encoded on the four ports (R70). -/
def present (k : AmpKind) (i : Instr) : Machine.Input := .command (encode k i)

/-- `n` steps of the machine, stopping where a step has no next state.  It is the host's `core.run`, with the machine's own types
(`coreRun_eq_runSteps`). -/
def runSteps : Nat → Machine.State → Host.Outcome Machine.State Machine.Fault Machine.Refusal
  | 0, s => .next s
  | n + 1, s =>
    match Machine.step s with
    | .next t => runSteps n t
    | .fault r => .fault r
    | .refused r => .refused r

/-- The primitive commands RUN stands for (R173, R225): `MINIT a; SCLR; CAPT (n times); ROT; PACK`. -/
def runCommands (n : Nat) (a : Amp) : List Instr :=
  [.minit a, .sclr] ++ List.replicate n .capt ++ [.rot, .pack]

/-- The pseudo-command `rotate_and_drop(l)` (R86). -/
def rotateAndDropCommands (l : List Bit) : List Instr := .sclr :: l.map .spush ++ [.rot]

/-- The pseudo-command `pack(l)` (R86). -/
def packCommands (l : List Bit) : List Instr := .sclr :: l.map .spush ++ [.pack]

end Sys2Proof
end

