-- ==== Sys2Proof/Certificates/Slice0/Obligations.lean ====
section
/-! DEFINITION. The statements for the provers.  Each says which rule of spec/ it formalises; `.next` is a next state of the
block, and a fault of the block is a next state whose `err` is not `none` (R196). -/

open Sys2Proof Sys2Proof.Machine

/-! ### The command port, decoding, and one step -/

/-- R72: the complete map from `op` to command, and the seven reserved values. -/
def Obligations.DecoderFollowsTheOpcodeMap : Prop :=
  ∀ p : Ports,
    (p.op = 0x0#4 → decode p = .ok .nop) ∧
    (p.op = 0x1#4 → decode p = .ok (.run p.argN p.argAmp)) ∧
    (p.op = 0x4#4 → decode p = .ok (.minit p.argAmp)) ∧
    (p.op = 0x5#4 → decode p = .ok .madv) ∧
    (p.op = 0x6#4 → decode p = .ok .capt) ∧
    (p.op = 0x8#4 → decode p = .ok .sclr) ∧
    (p.op = 0x9#4 → decode p = .ok (.spush p.argBit)) ∧
    (p.op = 0xA#4 → decode p = .ok .rot) ∧
    (p.op = 0xC#4 → decode p = .ok .pack) ∧
    (p.op ∈ [0x2#4, 0x3#4, 0x7#4, 0xB#4, 0xD#4, 0xE#4, 0xF#4] → decode p = .error (.reservedOp p.op))

/-- R72, table rows: the words of the opcode table, written out, decode to their commands (operand ports zero). -/
def Obligations.TableWordsDecode : Prop :=
  decodeTableWord 8 0b0000 = some .nop ∧ decodeTableWord 8 0b0001 = some (.run 0#16 (.rat 0)) ∧
  decodeTableWord 8 0b0100 = some (.minit (.rat 0)) ∧ decodeTableWord 8 0b0101 = some .madv ∧
  decodeTableWord 8 0b0110 = some .capt ∧ decodeTableWord 8 0b1000 = some .sclr ∧
  decodeTableWord 8 0b1001 = some (.spush false) ∧ decodeTableWord 8 0b1010 = some .rot ∧
  decodeTableWord 8 0b1100 = some .pack ∧ decodeTableWord 8 0b0111 = none

/-- R70, R72, R76: decoding an encoded command gives it back with every operand; and a presentation that decodes to a command
has that command's `op` and re-encodes to a presentation that decodes to it. -/
def Obligations.DecodeAndEncodeAgree : Prop :=
  (∀ (k : AmpKind) (i : Instr), decode (encode k i) = .ok i) ∧
  ∀ (k : AmpKind) (p : Ports) (i : Instr), decode p = .ok i →
    (encode k i).op = p.op ∧ decode (encode k i) = decode p

/-- R76: the value on a port the command does not use changes nothing.  Only RUN (0x1) uses `arg_n`, only RUN and MINIT (0x4)
`arg_amp`, only SPUSH (0x9) `arg_bit`. -/
def Obligations.UnusedPortsChangeNothing : Prop :=
  ∀ (s : State) (p : Ports) (rest : List Input) (n : BitVec 16) (a : Amp) (b : Bit),
    (p.op ≠ 0x1#4 →
      step { s with inputs := .command { p with argN := n } :: rest } = step { s with inputs := .command p :: rest }) ∧
    (p.op ≠ 0x1#4 → p.op ≠ 0x4#4 →
      step { s with inputs := .command { p with argAmp := a } :: rest } = step { s with inputs := .command p :: rest }) ∧
    (p.op ≠ 0x9#4 →
      step { s with inputs := .command { p with argBit := b } :: rest } = step { s with inputs := .command p :: rest })

/-- R58, R62, R70: when the presentation at the head of the inputs decodes to a command, one step is `exec` of that command in
the state with that presentation taken. -/
def Obligations.StepRunsTheDecodedCommand : Prop :=
  ∀ (s : State) (p : Ports) (rest : List Input) (i : Instr),
    s.inputs = .command p :: rest → decode p = .ok i → step s = exec i { s with inputs := rest }

/-- R77, R195: a reserved `op` writes IllegalCommand and changes nothing else, whatever the operand ports; in a halted block it
is ignored. -/
def Obligations.ReservedOpRaisesIllegalCommand : Prop :=
  ∀ (s : State) (p : Ports) (rest : List Input), s.inputs = .command p :: rest →
    p.op ∈ [0x2#4, 0x3#4, 0x7#4, 0xB#4, 0xD#4, 0xE#4, 0xF#4] →
    (s.err = .none → step s = .next { s with inputs := rest, err := .illegalCommand }) ∧
    (s.err ≠ .none → step s = .next { s with inputs := rest })

/-- R197: while `ERR != 0` every presented command, defined or reserved, has no effect but to be taken from the port. -/
def Obligations.HaltedBlockIgnoresEveryCommand : Prop :=
  ∀ (s : State) (p : Ports) (rest : List Input), s.err ≠ .none → s.inputs = .command p :: rest →
    step s = .next { s with inputs := rest }

/-- R220, R38: the reset input, in every state, halted or not, leaves the values of R38: `FB = AMP_ZERO`, `IDX = 0`, the store
empty, `STATUS = 0x00`; it emits nothing.  That `BUF` then reads as absent, that the new run reads the source list the input
brings, and that the block's `AMP` stays, are the model's choices (log entries 2, 3, 4). -/
def Obligations.ResetInputRestoresTheResetValues : Prop :=
  ∀ (s : State) (src : List Amp) (rest : List Input), s.inputs = .reset src :: rest →
    ∃ t, step s = .next t ∧ t.fb = s.env.amp.zero ∧ t.idx = 0 ∧ t.seq = [] ∧ t.slen = 0 ∧ t.status = 0x00#8 ∧
      (∀ a, a < 30 → t.readBuf a = .error (.notYetWritten a)) ∧ t.samples = s.samples ∧ t.inputs = rest ∧
      t.env.amp = s.env.amp ∧ t.env.src = src

/-- R38: the state after reset.  That `BUF` reads as absent is the model's choice among those of 93 U4 (log entry 2). -/
def Obligations.ResetStateHoldsTheResetValues : Prop :=
  State.reset.fb = State.reset.env.amp.zero ∧ State.reset.idx = 0 ∧ State.reset.seq = [] ∧ State.reset.slen = 0 ∧
  State.reset.status = 0x00#8 ∧ State.reset.err = .none ∧ State.reset.mrdy = false ∧ State.reset.bvalid = false ∧
  ∀ a, a < 30 → State.reset.readBuf a = .error (.notYetWritten a)

/-- R222: with nothing presented the block waits, unchanged (log entry 5). -/
def Obligations.IdleBlockWaits : Prop :=
  ∀ s : State, s.inputs = [] → step s = .next s

/-- R226: every step completes; no step of the block faults or is refused in the model's sense. -/
def Obligations.EveryStepCompletes : Prop :=
  ∀ s : State, ∃ t, step s = .next t

/-- R221, R26, R27, R28: no step but a reset clears `STATUS.ERR`, `MRDY` or `BVALID`, or changes a recorded fault; and a reset
clears all three. -/
def Obligations.OnlyResetClearsStatus : Prop :=
  ∀ s t : State, step s = .next t →
    ((∀ src rest, s.inputs ≠ .reset src :: rest) →
      (s.err ≠ .none → t.err = s.err) ∧ (s.mrdy = true → t.mrdy = true) ∧ (s.bvalid = true → t.bvalid = true)) ∧
    (∀ src rest, s.inputs = .reset src :: rest → t.err = .none ∧ t.mrdy = false ∧ t.bvalid = false)

/-! ### Faults and the status register -/

/-- R196: a presented command that faults, defined or reserved, changes `STATUS.ERR` and nothing else and emits no Sample, but
for RUN's (0x1) RotationError. -/
def Obligations.FaultsArePrecise : Prop :=
  ∀ (s t : State) (p : Ports) (rest : List Input), s.err = .none → s.inputs = .command p :: rest → step s = .next t →
    t.err ≠ .none → (p.op = 0x1#4 → t.err ≠ .rotationError) → t = { s with inputs := rest, err := t.err }

/-- R191, R202: which fault codes each command can raise. -/
def Obligations.CommandsRaiseOnlyTheirFaults : Prop :=
  ∀ (i : Instr) (s t : State), s.err = .none → exec i s = .next t → t.err ≠ .none →
    t.err ∈ (match i with
      | .nop => []
      | .run _ _ => [.lengthError, .bufferOverflow, .paramError, .rotationError]
      | .minit _ => [.paramError]
      | .madv => [.notInitialised]
      | .capt => [.notInitialised, .bufferOverflow]
      | .sclr => []
      | .spush _ => [.bufferOverflow]
      | .rot => [.lengthError, .rotationError]
      | .pack => [.lengthError, .bufferOverflow] : List ErrCode)

/-- R25: the fields of the register `STATUS` in every state; its reserved bits 3, 6 and 7 read as 0. -/
def Obligations.StatusRegisterLayout : Prop :=
  ∀ s : State,
    s.status.extractLsb' 0 3 = s.err.code ∧ s.status.getLsbD 3 = false ∧ s.status.getLsbD 4 = s.mrdy ∧
    s.status.getLsbD 5 = s.bvalid ∧ s.status.getLsbD 6 = false ∧ s.status.getLsbD 7 = false

/-- R191: the codes of the six faults, each its own, 0 only for no fault and 7 for none. -/
def Obligations.FaultCodesAreAsTabled : Prop :=
  [ErrCode.none, .rotationError, .bufferOverflow, .lengthError, .paramError, .notInitialised, .illegalCommand].map
      ErrCode.code = [0#3, 1#3, 2#3, 3#3, 4#3, 5#3, 6#3] ∧
  (∀ x y : ErrCode, x.code = y.code → x = y) ∧ ∀ x : ErrCode, x.code ≠ 7#3

/-! ### The modulator -/

/-- R170: NOP changes nothing in any state, and the all-zero opcode is NOP. -/
def Obligations.NopHasNoEffect : Prop :=
  (∀ s : State, exec .nop s = .next s) ∧ ∀ p : Ports, p.op = 0x0#4 → decode p = .ok .nop

/-- R104: MINIT in every case.  In every `AMP` the step `AMP_ZERO` is not positive (R6, R105), so MINIT of it faults. -/
def Obligations.MinitBuildsAFreshModulator : Prop :=
  ∀ (a : Amp) (s : State),
    (s.err ≠ .none → exec (.minit a) s = .next s) ∧
    (s.err = .none → s.env.amp.gt0 a = false → exec (.minit a) s = .next { s with err := .paramError }) ∧
    (s.err = .none → exec (.minit s.env.amp.zero) s = .next { s with err := .paramError }) ∧
    (s.err = .none → s.env.amp.gt0 a = true →
      exec (.minit a) s = .next { s with slope := a, fb := s.env.amp.zero, idx := 0, mrdy := true }) ∧
    ∀ p : Ports, p.op = 0x4#4 → decode p = .ok (.minit p.argAmp)

/-- R106 to R109, R81: MADV in every case.  The step quantizes the computed difference, emits the Sample with the old `FB`,
adds `SLOPE` or its negative, and advances `IDX`. -/
def Obligations.MadvTakesOneStep : Prop :=
  ∀ s : State,
    (s.err ≠ .none → exec .madv s = .next s) ∧
    (s.err = .none → s.mrdy = false → exec .madv s = .next { s with err := .notInitialised }) ∧
    (s.err = .none → s.mrdy = true → ∀ (c e : Amp) (d : Bit),
      c = command s.env s.idx → e = s.env.amp.sub c s.fb → d = s.env.amp.ge0 e →
      exec .madv s = .next { s with
        fb := s.env.amp.add s.fb (s.env.amp.mulDec s.slope d), idx := s.idx + 1, samples := s.samples ++ [⟨c, s.fb, d⟩] }) ∧
    ∀ p : Ports, p.op = 0x5#4 → decode p = .ok .madv

/-- R6: the six operations and `amp_mul_dec` of `Q` are those of the rationals. -/
def Obligations.RationalAmpIsExact : Prop :=
  ∀ a b : Rat,
    AmpKind.q.zero = .rat 0 ∧ AmpKind.q.add (.rat a) (.rat b) = .rat (a + b) ∧
    AmpKind.q.sub (.rat a) (.rat b) = .rat (a - b) ∧ AmpKind.q.neg (.rat a) = .rat (-a) ∧
    (AmpKind.q.ge0 (.rat a) = true ↔ a ≥ 0) ∧ (AmpKind.q.gt0 (.rat a) = true ↔ a > 0) ∧
    AmpKind.q.mulDec (.rat a) true = .rat a ∧ AmpKind.q.mulDec (.rat a) false = .rat (-a)

/-- R107, `AMP = Q`: +1 exactly when the command value is at least the accumulator; a tie gives +1. -/
def Obligations.RationalQuantizerComparesValues : Prop :=
  ∀ c f : Rat, quantize .q (.rat c) (.rat f) = decide (c ≥ f)

/-- R107, `AMP = F64`: for finite operands the test on the computed difference agrees with comparing the values. -/
def Obligations.BinaryQuantizerComparesFiniteValues : Prop :=
  ∀ c f : BitVec 64, f64IsFinite c = true → f64IsFinite f = true →
    quantize .f64 (.f64 c) (.f64 f) = decide (f64Int f ≤ f64Int c)

/-- R112, `AMP = F64`: a NaN error decides -1, whether the command value or the accumulator is a NaN or both are infinities of
the same sign; an infinite command value against a finite accumulator, or against the infinity of the other sign, decides by its
sign; a finite command value against an infinite accumulator decides -1 against `+infinity` and +1 against `-infinity`; an error
of `-0.0` decides +1; with an infinite step the first addition to a finite accumulator makes it infinite. -/
def Obligations.NonFiniteDecisions : Prop :=
  ∀ c f x : BitVec 64,
    (f64IsNaN c = true ∨ f64IsNaN f = true → quantize .f64 (.f64 c) (.f64 f) = false) ∧
    (f64IsInf c = true → f64IsInf f = true → f64Sign c = f64Sign f → quantize .f64 (.f64 c) (.f64 f) = false) ∧
    (f64IsInf c = true → f64IsFinite f = true → quantize .f64 (.f64 c) (.f64 f) = !f64Sign c) ∧
    (f64IsInf c = true → f64IsInf f = true → f64Sign c ≠ f64Sign f → quantize .f64 (.f64 c) (.f64 f) = !f64Sign c) ∧
    (f64IsFinite c = true → f64IsInf f = true → quantize .f64 (.f64 c) (.f64 f) = f64Sign f) ∧
    f64Ge0 0x8000000000000000#64 = true ∧
    (f64IsInf x = true → f64IsFinite f = true →
      ∀ d, f64IsInf (AmpKind.f64.add (.f64 f) (AmpKind.f64.mulDec (.f64 x) d)).toBits = true)

/-- R105, D9, `AMP = F64`: MINIT's test is false for either zero, for every value with the sign bit set and for every NaN, and
true for every other value, `+infinity` among them. -/
def Obligations.BinaryPositiveTest : Prop :=
  ∀ b : BitVec 64,
    AmpKind.f64.gt0 (.f64 b) = true ↔ f64IsNaN b = false ∧ f64Sign b = false ∧ b ≠ 0#64

/-- R6, R108, `AMP = F64`: a finite sum of finite values is the binary64 value nearest to the exact sum, and of two equally near
ones the one whose fraction is even.  That the nearest is sought among the subnormal values too is log entry 8 (PRESUMED). -/
def Obligations.BinarySumIsRoundedToNearestEven : Prop :=
  ∀ a b y : BitVec 64, f64IsFinite a = true → f64IsFinite b = true → f64IsFinite y = true →
    f64IsFinite (f64Add a b) = true →
    (f64Int (f64Add a b) - (f64Int a + f64Int b)).natAbs ≤ (f64Int y - (f64Int a + f64Int b)).natAbs ∧
    ((f64Int (f64Add a b) - (f64Int a + f64Int b)).natAbs = (f64Int y - (f64Int a + f64Int b)).natAbs →
      f64Int y ≠ f64Int (f64Add a b) → f64Frac (f64Add a b) % 2 = 0)

/-- R113, `AMP = F64`: a sum of finite values is never a NaN, and it is an infinity, of the sum's sign, exactly when the exact
sum is at least half a step beyond the largest finite value. -/
def Obligations.BinarySumOverflowsToInfinity : Prop :=
  ∀ a b : BitVec 64, f64IsFinite a = true → f64IsFinite b = true →
    f64IsNaN (f64Add a b) = false ∧
    (f64IsInf (f64Add a b) = true ↔ (2 ^ 54 - 1) * 2 ^ 2044 ≤ (f64Int a + f64Int b).natAbs) ∧
    (f64IsInf (f64Add a b) = true → f64Sign (f64Add a b) = decide (f64Int a + f64Int b < 0))

/-- R84, R100, R103: `src_idx` shows `IDX`, and within a run the command value is a function of the index alone: no command
changes it. -/
def Obligations.CommandsKeepTheSource : Prop :=
  ∀ (i : Instr) (s t : State), exec i s = .next t →
    s.srcIdx = s.idx ∧ t.env = s.env ∧ ∀ j, command t.env j = command s.env j

/-! ### The sequence store -/

/-- R121: SCLR in every case. -/
def Obligations.SclrEmptiesTheStore : Prop :=
  ∀ s : State,
    (s.err ≠ .none → exec .sclr s = .next s) ∧ (s.err = .none → exec .sclr s = .next { s with seq := [] }) ∧
    ∀ p : Ports, p.op = 0x8#4 → decode p = .ok .sclr

/-- R122: SPUSH in every case. -/
def Obligations.SpushAppendsTheBit : Prop :=
  ∀ (b : Bit) (s : State),
    (s.err ≠ .none → exec (.spush b) s = .next s) ∧
    (s.err = .none → s.slen = 232 → exec (.spush b) s = .next { s with err := .bufferOverflow }) ∧
    (s.err = .none → s.slen ≠ 232 → exec (.spush b) s = .next { s with seq := s.seq ++ [b] }) ∧
    ∀ p : Ports, p.op = 0x9#4 → decode p = .ok (.spush p.argBit)

/-- R124, R125, R127: CAPT in every case. -/
def Obligations.CaptStepsAndCaptures : Prop :=
  ∀ s : State,
    (s.err ≠ .none → exec .capt s = .next s) ∧
    (s.err = .none → s.mrdy = false → exec .capt s = .next { s with err := .notInitialised }) ∧
    (s.err = .none → s.mrdy = true → s.slen = 232 → exec .capt s = .next { s with err := .bufferOverflow }) ∧
    (s.err = .none → s.mrdy = true → s.slen ≠ 232 → ∀ (c e : Amp) (d : Bit),
      c = command s.env s.idx → e = s.env.amp.sub c s.fb → d = s.env.amp.ge0 e →
      exec .capt s = .next { s with
        fb := s.env.amp.add s.fb (s.env.amp.mulDec s.slope d), idx := s.idx + 1, seq := s.seq ++ [d]
        samples := s.samples ++ [⟨c, s.fb, d⟩] }) ∧
    ∀ p : Ports, p.op = 0x6#4 → decode p = .ok .capt

/-- R128: `MINIT a; SCLR` and `n` times CAPT, presented one after the other to a block that is not halted, leave in the store
the first `n` decisions of a fresh modulator, in step order. -/
def Obligations.TakeFirstN : Prop :=
  ∀ (s : State) (n : Nat) (a : Amp) (rest : List Input), s.err = .none → n ≤ 232 → s.env.amp.gt0 a = true →
    ∃ t, runSteps (n + 2) { s with
        inputs := ([Instr.minit a, .sclr] ++ List.replicate n Instr.capt).map (present s.env.amp) ++ rest } = .next t ∧
      t.slen = n ∧ t.seq = firstBits s.env a n ∧ t.samples = s.samples ++ firstSamples s.env a n ∧ t.idx = n ∧
      t.fb = fbAt s.env a n ∧ t.slope = a ∧ t.err = .none ∧ t.inputs = rest

/-! ### The rotator -/

/-- R135, R136, R141: ROT in every case. -/
def Obligations.RotReplacesTheStore : Prop :=
  ∀ s : State,
    (s.err ≠ .none → exec .rot s = .next s) ∧
    (s.err = .none → s.slen < 2 → exec .rot s = .next { s with err := .lengthError }) ∧
    (s.err = .none → 2 ≤ s.slen → rotate s.seq = none → exec .rot s = .next { s with err := .rotationError }) ∧
    (s.err = .none → 2 ≤ s.slen → ∀ r, rotate s.seq = some r → exec .rot s = .next { s with seq := r }) ∧
    ∀ p : Ports, p.op = 0xA#4 → decode p = .ok .rot

/-- R137: the three cases of `ROTATE`, in index form. -/
def Obligations.RotateFollowsTheThreeCases : Prop :=
  ∀ b : List Bit, 2 ≤ b.length →
    (b[0]? = b[b.length - 1]? → rotate b = some (b.take (b.length - 1))) ∧
    (b[0]? ≠ b[b.length - 1]? → ∀ i, 1 ≤ i → i ≤ b.length - 1 → b[i - 1]? = b[i]? →
      (∀ j, 1 ≤ j → j < i → b[j - 1]? ≠ b[j]?) → rotate b = some (b.drop i ++ b.take (i - 1))) ∧
    (b[0]? ≠ b[b.length - 1]? → (∀ i, 1 ≤ i → i ≤ b.length - 1 → b[i - 1]? ≠ b[i]?) → rotate b = none)

/-- R138: every successful rotation of `N >= 2` bits has `N - 1` bits. -/
def Obligations.RotationDropsOneBit : Prop :=
  ∀ b r : List Bit, 2 ≤ b.length → rotate b = some r → r.length = b.length - 1

/-- R140: `ROTATE` fails exactly on the strictly alternating sequences of even length; one of odd length loses its last bit. -/
def Obligations.RotationFailsExactlyOnEvenAlternation : Prop :=
  ∀ b : List Bit, 2 ≤ b.length →
    (rotate b = none ↔ b.length % 2 = 0 ∧ ∀ i, i + 1 < b.length → b[i]? ≠ b[i + 1]?) ∧
    (b.length % 2 = 1 → (∀ i, i + 1 < b.length → b[i]? ≠ b[i + 1]?) → rotate b = some (b.take (b.length - 1)))

/-- R139, R142: the result is the input circle with one element of an equal neighbouring pair removed. -/
def Obligations.RotationIsTheCircleLessOneOfAPair : Prop :=
  ∀ b r : List Bit, 2 ≤ b.length → rotate b = some r →
    ∃ p, p < b.length ∧ b[p]? = b[(p + 1) % b.length]? ∧ r ~r b.eraseIdx p

/-- R142: the number of places around the circle where neighbours differ is the same before and after. -/
def Obligations.RotationKeepsCircularChanges : Prop :=
  ∀ b r : List Bit, 2 ≤ b.length → rotate b = some r → circularChanges r = circularChanges b

/-! ### The packer and `BUF` -/

/-- R150, R156, R159: PACK in every case.  The bytes written are the thirty of `PACKBITS`, at addresses 0 to 29. -/
def Obligations.PackWritesTheBuffer : Prop :=
  ∀ s : State,
    (s.err ≠ .none → exec .pack s = .next s) ∧
    (s.err = .none → s.slen = 0 → exec .pack s = .next { s with err := .lengthError }) ∧
    (s.err = .none → 232 < s.slen → exec .pack s = .next { s with err := .bufferOverflow }) ∧
    (s.err = .none → 1 ≤ s.slen → s.slen ≤ 232 →
      exec .pack s = .next { s with buf := memWriteAll s.buf 0 (packBits s.seq), bvalid := true } ∧
      (packBits s.seq).length = 30 ∧
      (∀ a, a < 30 → memRead (memWriteAll s.buf 0 (packBits s.seq)) a = (packBits s.seq)[a]?) ∧
      ∀ a, 30 ≤ a → memRead (memWriteAll s.buf 0 (packBits s.seq)) a = memRead s.buf a) ∧
    ∀ p : Ports, p.op = 0xC#4 → decode p = .ok .pack

/-- R151, R155: the closed form of `PACKBITS`. -/
def Obligations.PackedBitsClosedForm : Prop :=
  ∀ s : List Bit, 1 ≤ s.length → s.length ≤ 232 →
    (packBits s).length = 30 ∧ (packBits s)[0]? = some (BitVec.ofNat 8 s.length) ∧
    (∀ a p, 1 ≤ a → a ≤ 28 → p < 8 →
      ((packBits s).getD a 0#8).getLsbD p =
        if 8 * (a - 1) + p ≤ s.length - 1 then s.getD (s.length - 1 - (8 * (a - 1) + p)) false else false) ∧
    (s.length ≤ 224 → (packBits s)[29]? = (packBits s)[1 + (s.length - 1) / 8]?) ∧
    (225 ≤ s.length → ∀ p, p < 8 →
      ((packBits s).getD 29 0#8).getLsbD p =
        if 224 + p ≤ s.length - 1 then s.getD (s.length - 1 - (224 + p)) false else false)

/-- R52, R53: the address map of `BUF` after a completed PACK, as read from outside. -/
def Obligations.PackedBufferAddressMap : Prop :=
  ∀ s : State, s.err = .none → 1 ≤ s.slen → s.slen ≤ 232 →
    ∃ t, exec .pack s = .next t ∧ t.readBuf 0 = .ok (BitVec.ofNat 8 s.slen) ∧
      (∀ k, k < s.slen → ∃ v, t.readBuf (1 + k / 8) = .ok v ∧ some (v.getLsbD (k % 8)) = s.seq[s.slen - 1 - k]?) ∧
      (∀ p v, p < 8 → s.slen ≤ 8 * ((s.slen - 1) / 8) + p → t.readBuf (1 + (s.slen - 1) / 8) = .ok v →
        v.getLsbD p = false) ∧
      (∀ a, 1 + (s.slen - 1) / 8 < a → a ≤ 28 → t.readBuf a = .ok 0#8) ∧
      t.readBuf 29 = t.readBuf (1 + (s.slen - 1) / 8)

/-- R54: after a completed PACK the bytes `BUF[1..last]`, read little-endian, are the sequence read as a binary numeral. -/
def Obligations.PayloadSpellsTheNumeral : Prop :=
  ∀ s : State, s.err = .none → 1 ≤ s.slen → s.slen ≤ 232 →
    ∃ t bytes, exec .pack s = .next t ∧ memReadRange t.buf 1 (1 + (s.slen - 1) / 8) = some bytes ∧
      littleEndian bytes = ((List.range s.slen).map fun j => (s.seq.getD j false).toNat * 2 ^ (s.slen - 1 - j)).sum ∧
      littleEndian bytes = numeral s.seq

/-- R161: the packed buffer determines the sequence, by the formula of the rule. -/
def Obligations.PackingLosesNothing : Prop :=
  (∀ s : List Bit, 1 ≤ s.length → s.length ≤ 232 → unpackBits (packBits s) = s) ∧
  ∀ s q : List Bit, 1 ≤ s.length → s.length ≤ 232 → 1 ≤ q.length → q.length ≤ 232 → packBits s = packBits q → s = q

/-- R59, R162: PACK again changes nothing, and `BUF` after PACK depends on the store alone: nothing of its old content stays. -/
def Obligations.PackForgetsTheOldBuffer : Prop :=
  ∀ s u : State, Memory.wf s.buf → Memory.wf u.buf → s.err = .none → u.err = .none → s.seq = u.seq → 1 ≤ s.slen →
    s.slen ≤ 232 → ∃ t v, exec .pack s = .next t ∧ exec .pack u = .next v ∧ exec .pack t = .next t ∧ t.buf = v.buf

/-- R50: `BUF` has the addresses 0 to 29, and a read there gives the byte last written.  Two outcomes of a read are the model's
choice: the fault `noSuchAddress` outside 0 to 29, where no command can ask (log entry 11), and the fault `notYetWritten` at a byte
no PACK has written (log entry 2). -/
def Obligations.BufferReadsStayInside : Prop :=
  ∀ (s : State) (a : Nat),
    (30 ≤ a → s.readBuf a = .error (.noSuchAddress a)) ∧
    (a < 30 → ∀ v, memRead s.buf a = some v → s.readBuf a = .ok v) ∧
    (a < 30 → memRead s.buf a = none → s.readBuf a = .error (.notYetWritten a))

/-- R56, R181, R183: with `BVALID = 1` and `ERR = 0` the transport takes exactly thirty bytes, in ascending order of address; in
any other state it may take none. -/
def Obligations.TransportTakesThirtyBytes : Prop :=
  ∀ s : State, BlockInv s →
    (Deliverable s → ∃ bytes, s.frame = some bytes ∧ bytes.length = 30 ∧
      ∀ a, a < 30 → s.readBuf a = .ok (bytes.getD a 0#8)) ∧
    (¬ Deliverable s → s.frame = none)

/-! ### RUN -/

/-- R172: RUN's operand checks in their order; a failing check changes `STATUS.ERR` and nothing else; after the checks the
captures leave `SLEN = n` and `IDX = n`, no fault among them. -/
def Obligations.RunChecksItsOperandsFirst : Prop :=
  ∀ (n : BitVec 16) (a : Amp) (s : State), s.err = .none →
    (n.toNat < 2 → exec (.run n a) s = .next { s with err := .lengthError }) ∧
    (232 < n.toNat → exec (.run n a) s = .next { s with err := .bufferOverflow }) ∧
    (2 ≤ n.toNat → n.toNat ≤ 232 → s.env.amp.gt0 a = false → exec (.run n a) s = .next { s with err := .paramError }) ∧
    (2 ≤ n.toNat → n.toNat ≤ 232 → s.env.amp.gt0 a = true →
      (runCapture n.toNat a s).slen = n.toNat ∧ (runCapture n.toNat a s).idx = n.toNat ∧
      (runCapture n.toNat a s).err = .none)

/-- R175: RUN on success. -/
def Obligations.RunLeavesThePackedFrame : Prop :=
  ∀ (n : BitVec 16) (a : Amp) (s : State) (r : List Bit), s.err = .none → 2 ≤ n.toNat → n.toNat ≤ 232 →
    s.env.amp.gt0 a = true → rotate (firstBits s.env a n.toNat) = some r →
    exec (.run n a) s = .next { s with
      slope := a, idx := n.toNat, fb := fbAt s.env a n.toNat, mrdy := true, seq := r
      buf := memWriteAll s.buf 0 (packBits r), bvalid := true
      samples := s.samples ++ firstSamples s.env a n.toNat } ∧
    r.length = n.toNat - 1 ∧ (packBits r)[0]? = some (BitVec.ofNat 8 (n.toNat - 1))

/-- R174, R199: RUN when the captured bits cannot be rotated: the captures stay, `BUF` and `BVALID` are as before. -/
def Obligations.RunStopsAtRotationError : Prop :=
  ∀ (n : BitVec 16) (a : Amp) (s : State), s.err = .none → 2 ≤ n.toNat → n.toNat ≤ 232 →
    s.env.amp.gt0 a = true → rotate (firstBits s.env a n.toNat) = none →
    exec (.run n a) s = .next { s with
      slope := a, idx := n.toNat, fb := fbAt s.env a n.toNat, mrdy := true, seq := firstBits s.env a n.toNat
      samples := s.samples ++ firstSamples s.env a n.toNat, err := .rotationError }

/-- R173: past its operand checks RUN is exactly the commands `MINIT a; SCLR; CAPT` (`n` times)`; ROT; PACK` presented one
after the other, and no fault but RotationError can occur. -/
def Obligations.RunIsItsCommandSequence : Prop :=
  ∀ (n : BitVec 16) (a : Amp) (s : State) (rest : List Input), s.err = .none → 2 ≤ n.toNat → n.toNat ≤ 232 →
    s.env.amp.gt0 a = true →
    ∃ t, exec (.run n a) { s with inputs := rest } = .next t ∧
      runSteps (n.toNat + 4) { s with inputs := (runCommands n.toNat a).map (present s.env.amp) ++ rest } = .next t ∧
      (t.err = .none ∨ t.err = .rotationError)

/-- R176: past its operand checks, what RUN leaves depends on its operands, `AMP` and the values `SRC(0) .. SRC(n-1)` alone, not
on the modulator or the store before it. -/
def Obligations.RunForgetsThePast : Prop :=
  ∀ (n : BitVec 16) (a : Amp) (s u : State), s.err = .none → u.err = .none → s.env.amp = u.env.amp →
    (∀ j, j < n.toNat → command s.env j = command u.env j) → 2 ≤ n.toNat → n.toNat ≤ 232 → s.env.amp.gt0 a = true →
    ∃ t v l, exec (.run n a) s = .next t ∧ exec (.run n a) u = .next v ∧
      t.fb = v.fb ∧ t.slope = v.slope ∧ t.idx = v.idx ∧ t.seq = v.seq ∧ t.err = v.err ∧ t.mrdy = v.mrdy ∧
      t.samples = s.samples ++ l ∧ v.samples = u.samples ++ l ∧ t.frame = v.frame ∧
      (t.err = .none → ∀ x, x < 30 → t.readBuf x = v.readBuf x)

/-! ### Frames -/

/-- R104, R106, R121, R122, R124, R135, R170, R236: the commands other than PACK and RUN leave every byte of `BUF` and `BVALID`
as they were. -/
def Obligations.OnlyPackingTouchesTheBuffer : Prop :=
  ∀ (i : Instr) (s t : State), i ≠ .pack → (∀ n a, i ≠ .run n a) → exec i s = .next t →
    t.bvalid = s.bvalid ∧ ∀ a, memRead t.buf a = memRead s.buf a

/-- R121, R122, R135, R150, R170: NOP, SCLR, SPUSH, ROT and PACK leave the modulator, `MRDY` and the Samples as they were. -/
def Obligations.StoreCommandsKeepTheModulator : Prop :=
  ∀ (i : Instr) (s t : State), (i ∈ [.nop, .sclr, .rot, .pack] ∨ ∃ b, i = .spush b) → exec i s = .next t →
    t.fb = s.fb ∧ t.slope = s.slope ∧ t.idx = s.idx ∧ t.mrdy = s.mrdy ∧ t.samples = s.samples

/-- R104, R106, R150, R170: NOP, MINIT, MADV and PACK leave the store as it was; MADV and CAPT leave `SLOPE`, `MRDY` and `BVALID`
as they were. -/
def Obligations.ModulatorCommandsKeepTheStore : Prop :=
  ∀ (i : Instr) (s t : State), exec i s = .next t →
    ((i ∈ [.nop, .madv, .pack] ∨ ∃ a, i = .minit a) → t.seq = s.seq) ∧
    (i ∈ [.madv, .capt] → t.slope = s.slope ∧ t.mrdy = s.mrdy ∧ t.bvalid = s.bvalid)

/-- R36, R81: a command never takes back a Sample; a completed MADV or CAPT emits one, a RUN that passes its operand checks
`arg_n`, everything else none; and no command touches what the host will present next.  That the emitted Samples and the
presentations to come are lists beside the block's state is the model's choice (log entries 5, 6). -/
def Obligations.SamplesAreOnlyAppended : Prop :=
  ∀ (i : Instr) (s t : State), s.err = .none → exec i s = .next t →
    t.inputs = s.inputs ∧ ∃ l, t.samples = s.samples ++ l ∧
      l.length = (match i with
        | .madv => if t.err = .none then 1 else 0
        | .capt => if t.err = .none then 1 else 0
        | .run n _ => if t.err = .none ∨ t.err = .rotationError then n.toNat else 0
        | _ => 0)

/-- R21, R201, D10: before a modulator exists `SLOPE` holds no value that matters: whatever the field holds (the model's reset
value is log entry 1), a command has the same outcome, and the field stays unread unless MINIT or RUN replaces it. -/
def Obligations.SlopeIsUnreadWithoutAModulator : Prop :=
  ∀ (i : Instr) (s t : State) (x : Amp), s.mrdy = false → exec i s = .next t →
    exec i { s with slope := x } = .next (if t.mrdy then t else { t with slope := x })

/-- R33, R41, R223: before the first PACK nothing that can be observed, now or after any command, depends on what `BUF` holds. -/
def Obligations.UnwrittenBufferIsInvisible : Prop :=
  ∀ (i : Instr) (s t u : State) (m : Memory), s.bvalid = false → exec i s = .next t →
    exec i { s with buf := m } = .next u → t.observe = u.observe ∧ t.frame = u.frame

/-! ### Invariants -/

/-- The reset state meets the invariants. -/
def Obligations.ResetMeetsTheInvariants : Prop :=
  BlockInv State.reset ∧ FeedbackIsMultiple State.reset

/-- R21, R28, R31, R50: every step keeps the invariant: at most 232 bits in the store, `BUF` in canonical form inside 0 to 29, a
positive step whenever `MRDY`, a packed frame whenever `BVALID`, and every amplitude a value of the block's `AMP`. -/
def Obligations.EveryStepKeepsTheInvariant : Prop :=
  ∀ s t : State, BlockInv s → step s = .next t → BlockInv t

/-- R39, `AMP = Q`: every step keeps `FB = (p - m) * SLOPE`, where `p` and `m` count the decisions +1 and -1 of the current
modulator's `IDX` Samples. -/
def Obligations.EveryStepKeepsFeedbackAMultiple : Prop :=
  ∀ s t : State, FeedbackIsMultiple s → step s = .next t → FeedbackIsMultiple t

/-- R40, `AMP = Q`: when the command values it asks for lie in `[-A, A]`, a command keeps `FB` in `[-A - SLOPE, A + SLOPE]`.  The
premise `0 ≤ A` says that the interval is not empty, which a command that asks for no value would not say. -/
def Obligations.CommandsKeepFeedbackBounded : Prop :=
  ∀ (A : Rat) (i : Instr) (s t : State), 0 ≤ A → s.env.amp = .q → SourceWithin A i s → SlopePositive s →
    (s.mrdy = true → FeedbackWithin A s) → exec i s = .next t → t.mrdy = true → FeedbackWithin A t
end

