-- ==== Sys2Proof/Laws/Amp.lean ====
section
/-! SUPPORT. What the operations of `AMP` give on values of each kind, and the order R6 fixes for every kind. -/

namespace Sys2Proof

@[simp] theorem Amp.toRat_rat (r : Rat) : (Amp.rat r).toRat = r := rfl
@[simp] theorem Amp.toBits_f64 (b : BitVec 64) : (Amp.f64 b).toBits = b := rfl
@[simp] theorem Amp.toCode_code (n : Nat) : (Amp.code n).toCode = n := rfl

@[simp] theorem AmpKind.zero_q : AmpKind.q.zero = .rat 0 := rfl
@[simp] theorem AmpKind.add_q (a b : Amp) : AmpKind.q.add a b = .rat (a.toRat + b.toRat) := rfl
@[simp] theorem AmpKind.sub_q (a b : Amp) : AmpKind.q.sub a b = .rat (a.toRat - b.toRat) := rfl
@[simp] theorem AmpKind.neg_q (a : Amp) : AmpKind.q.neg a = .rat (-a.toRat) := rfl
theorem AmpKind.ge0_q (a : Amp) : AmpKind.q.ge0 a = true ↔ 0 ≤ a.toRat := decide_eq_true_iff
theorem AmpKind.gt0_q (a : Amp) : AmpKind.q.gt0 a = true ↔ 0 < a.toRat := decide_eq_true_iff

@[simp] theorem AmpKind.zero_f64 : AmpKind.f64.zero = .f64 0#64 := rfl
@[simp] theorem AmpKind.add_f64 (a b : Amp) : AmpKind.f64.add a b = .f64 (Machine.f64Add a.toBits b.toBits) := rfl
@[simp] theorem AmpKind.sub_f64 (a b : Amp) : AmpKind.f64.sub a b = .f64 (Machine.f64Sub a.toBits b.toBits) := rfl
@[simp] theorem AmpKind.neg_f64 (a : Amp) : AmpKind.f64.neg a = .f64 (Machine.f64Neg a.toBits) := rfl
@[simp] theorem AmpKind.ge0_f64 (a : Amp) : AmpKind.f64.ge0 a = Machine.f64Ge0 a.toBits := rfl
@[simp] theorem AmpKind.gt0_f64 (a : Amp) : AmpKind.f64.gt0 a = Machine.f64Gt0 a.toBits := rfl

@[simp] theorem AmpKind.mulDec_true (k : AmpKind) (a : Amp) : k.mulDec a true = a := rfl
@[simp] theorem AmpKind.mulDec_false (k : AmpKind) (a : Amp) : k.mulDec a false = k.neg a := rfl

/-- `AMP_ZERO` is at least zero in every `AMP`. -/
@[simp] theorem AmpKind.ge0_zero (k : AmpKind) : k.ge0 k.zero = true := by
  cases k with
  | q => exact (ge0_q _).mpr le_rfl
  | f64 => decide
  | custom => rfl

/-- `AMP_ZERO` is not greater than zero in any `AMP`. -/
@[simp] theorem AmpKind.gt0_zero (k : AmpKind) : k.gt0 k.zero = false := by
  cases k with
  | q => exact decide_eq_false (lt_irrefl (0 : Rat))
  | f64 => decide
  | custom => rfl

/-- A value greater than zero is at least zero, in every `AMP`. -/
theorem AmpKind.ge0_of_gt0 {k : AmpKind} {a : Amp} (h : k.gt0 a = true) : k.ge0 a = true := by
  cases k with
  | q => exact (ge0_q a).mpr ((gt0_q a).mp h).le
  | f64 =>
    simp only [gt0_f64, Machine.f64Gt0, Bool.and_eq_true] at h
    simp [Machine.f64Ge0, h.1.1, h.1.2]
  | custom =>
    simp only [AmpKind.gt0, Bool.and_eq_true] at h
    simp [AmpKind.ge0, h.1.2]

/-- The zero of an `AMP` is one of its values. -/
@[simp] theorem AmpKind.has_zero (k : AmpKind) : k.has k.zero = true := by cases k <;> rfl

/-- A sum in an `AMP` is one of its values. -/
@[simp] theorem AmpKind.has_add (k : AmpKind) (a b : Amp) : k.has (k.add a b) = true := by cases k <;> rfl

/-- A negative in an `AMP` is one of its values. -/
@[simp] theorem AmpKind.has_neg (k : AmpKind) (a : Amp) : k.has (k.neg a) = true := by cases k <;> rfl

end Sys2Proof
end

