-- ==== Sys2Proof/Laws/State.lean ====
section
/-! SUPPORT. What each named update of the state does to each field: one lemma per field per update, true by `rfl`. -/

namespace Sys2Proof.Machine

@[simp] theorem raise_fb (code : ErrCode) (s : State) : (raise code s).fb = s.fb := rfl
@[simp] theorem raise_slope (code : ErrCode) (s : State) : (raise code s).slope = s.slope := rfl
@[simp] theorem raise_idx (code : ErrCode) (s : State) : (raise code s).idx = s.idx := rfl
@[simp] theorem raise_seq (code : ErrCode) (s : State) : (raise code s).seq = s.seq := rfl
@[simp] theorem raise_buf (code : ErrCode) (s : State) : (raise code s).buf = s.buf := rfl
@[simp] theorem raise_err (code : ErrCode) (s : State) : (raise code s).err = code := rfl
@[simp] theorem raise_mrdy (code : ErrCode) (s : State) : (raise code s).mrdy = s.mrdy := rfl
@[simp] theorem raise_bvalid (code : ErrCode) (s : State) : (raise code s).bvalid = s.bvalid := rfl
@[simp] theorem raise_env (code : ErrCode) (s : State) : (raise code s).env = s.env := rfl
@[simp] theorem raise_inputs (code : ErrCode) (s : State) : (raise code s).inputs = s.inputs := rfl
@[simp] theorem raise_samples (code : ErrCode) (s : State) : (raise code s).samples = s.samples := rfl

@[simp] theorem newModulator_fb (a : Amp) (s : State) : (newModulator a s).fb = s.env.amp.zero := rfl
@[simp] theorem newModulator_slope (a : Amp) (s : State) : (newModulator a s).slope = a := rfl
@[simp] theorem newModulator_idx (a : Amp) (s : State) : (newModulator a s).idx = 0 := rfl
@[simp] theorem newModulator_seq (a : Amp) (s : State) : (newModulator a s).seq = s.seq := rfl
@[simp] theorem newModulator_buf (a : Amp) (s : State) : (newModulator a s).buf = s.buf := rfl
@[simp] theorem newModulator_err (a : Amp) (s : State) : (newModulator a s).err = s.err := rfl
@[simp] theorem newModulator_mrdy (a : Amp) (s : State) : (newModulator a s).mrdy = true := rfl
@[simp] theorem newModulator_bvalid (a : Amp) (s : State) : (newModulator a s).bvalid = s.bvalid := rfl
@[simp] theorem newModulator_env (a : Amp) (s : State) : (newModulator a s).env = s.env := rfl
@[simp] theorem newModulator_inputs (a : Amp) (s : State) : (newModulator a s).inputs = s.inputs := rfl
@[simp] theorem newModulator_samples (a : Amp) (s : State) : (newModulator a s).samples = s.samples := rfl

@[simp] theorem advance_fb (smp : Sample) (x : Amp) (s : State) : (advance smp x s).fb = x := rfl
@[simp] theorem advance_slope (smp : Sample) (x : Amp) (s : State) : (advance smp x s).slope = s.slope := rfl
@[simp] theorem advance_idx (smp : Sample) (x : Amp) (s : State) : (advance smp x s).idx = s.idx + 1 := rfl
@[simp] theorem advance_seq (smp : Sample) (x : Amp) (s : State) : (advance smp x s).seq = s.seq := rfl
@[simp] theorem advance_buf (smp : Sample) (x : Amp) (s : State) : (advance smp x s).buf = s.buf := rfl
@[simp] theorem advance_err (smp : Sample) (x : Amp) (s : State) : (advance smp x s).err = s.err := rfl
@[simp] theorem advance_mrdy (smp : Sample) (x : Amp) (s : State) : (advance smp x s).mrdy = s.mrdy := rfl
@[simp] theorem advance_bvalid (smp : Sample) (x : Amp) (s : State) : (advance smp x s).bvalid = s.bvalid := rfl
@[simp] theorem advance_env (smp : Sample) (x : Amp) (s : State) : (advance smp x s).env = s.env := rfl
@[simp] theorem advance_inputs (smp : Sample) (x : Amp) (s : State) : (advance smp x s).inputs = s.inputs := rfl
@[simp] theorem advance_samples (smp : Sample) (x : Amp) (s : State) : (advance smp x s).samples = s.samples ++ [smp] := rfl

@[simp] theorem storeSeq_fb (q : List Bit) (s : State) : (storeSeq q s).fb = s.fb := rfl
@[simp] theorem storeSeq_slope (q : List Bit) (s : State) : (storeSeq q s).slope = s.slope := rfl
@[simp] theorem storeSeq_idx (q : List Bit) (s : State) : (storeSeq q s).idx = s.idx := rfl
@[simp] theorem storeSeq_seq (q : List Bit) (s : State) : (storeSeq q s).seq = q := rfl
@[simp] theorem storeSeq_buf (q : List Bit) (s : State) : (storeSeq q s).buf = s.buf := rfl
@[simp] theorem storeSeq_err (q : List Bit) (s : State) : (storeSeq q s).err = s.err := rfl
@[simp] theorem storeSeq_mrdy (q : List Bit) (s : State) : (storeSeq q s).mrdy = s.mrdy := rfl
@[simp] theorem storeSeq_bvalid (q : List Bit) (s : State) : (storeSeq q s).bvalid = s.bvalid := rfl
@[simp] theorem storeSeq_env (q : List Bit) (s : State) : (storeSeq q s).env = s.env := rfl
@[simp] theorem storeSeq_inputs (q : List Bit) (s : State) : (storeSeq q s).inputs = s.inputs := rfl
@[simp] theorem storeSeq_samples (q : List Bit) (s : State) : (storeSeq q s).samples = s.samples := rfl

@[simp] theorem appendBit_fb (b : Bit) (s : State) : (appendBit b s).fb = s.fb := rfl
@[simp] theorem appendBit_slope (b : Bit) (s : State) : (appendBit b s).slope = s.slope := rfl
@[simp] theorem appendBit_idx (b : Bit) (s : State) : (appendBit b s).idx = s.idx := rfl
@[simp] theorem appendBit_seq (b : Bit) (s : State) : (appendBit b s).seq = s.seq ++ [b] := rfl
@[simp] theorem appendBit_buf (b : Bit) (s : State) : (appendBit b s).buf = s.buf := rfl
@[simp] theorem appendBit_err (b : Bit) (s : State) : (appendBit b s).err = s.err := rfl
@[simp] theorem appendBit_mrdy (b : Bit) (s : State) : (appendBit b s).mrdy = s.mrdy := rfl
@[simp] theorem appendBit_bvalid (b : Bit) (s : State) : (appendBit b s).bvalid = s.bvalid := rfl
@[simp] theorem appendBit_env (b : Bit) (s : State) : (appendBit b s).env = s.env := rfl
@[simp] theorem appendBit_inputs (b : Bit) (s : State) : (appendBit b s).inputs = s.inputs := rfl
@[simp] theorem appendBit_samples (b : Bit) (s : State) : (appendBit b s).samples = s.samples := rfl

@[simp] theorem storeBuf_fb (bytes : List Byte) (s : State) : (storeBuf bytes s).fb = s.fb := rfl
@[simp] theorem storeBuf_slope (bytes : List Byte) (s : State) : (storeBuf bytes s).slope = s.slope := rfl
@[simp] theorem storeBuf_idx (bytes : List Byte) (s : State) : (storeBuf bytes s).idx = s.idx := rfl
@[simp] theorem storeBuf_seq (bytes : List Byte) (s : State) : (storeBuf bytes s).seq = s.seq := rfl
@[simp] theorem storeBuf_buf (bytes : List Byte) (s : State) : (storeBuf bytes s).buf = memWriteAll s.buf 0 bytes := rfl
@[simp] theorem storeBuf_err (bytes : List Byte) (s : State) : (storeBuf bytes s).err = s.err := rfl
@[simp] theorem storeBuf_mrdy (bytes : List Byte) (s : State) : (storeBuf bytes s).mrdy = s.mrdy := rfl
@[simp] theorem storeBuf_bvalid (bytes : List Byte) (s : State) : (storeBuf bytes s).bvalid = true := rfl
@[simp] theorem storeBuf_env (bytes : List Byte) (s : State) : (storeBuf bytes s).env = s.env := rfl
@[simp] theorem storeBuf_inputs (bytes : List Byte) (s : State) : (storeBuf bytes s).inputs = s.inputs := rfl
@[simp] theorem storeBuf_samples (bytes : List Byte) (s : State) : (storeBuf bytes s).samples = s.samples := rfl

@[simp] theorem setInputs_fb (rest : List Input) (s : State) : (setInputs rest s).fb = s.fb := rfl
@[simp] theorem setInputs_slope (rest : List Input) (s : State) : (setInputs rest s).slope = s.slope := rfl
@[simp] theorem setInputs_idx (rest : List Input) (s : State) : (setInputs rest s).idx = s.idx := rfl
@[simp] theorem setInputs_seq (rest : List Input) (s : State) : (setInputs rest s).seq = s.seq := rfl
@[simp] theorem setInputs_buf (rest : List Input) (s : State) : (setInputs rest s).buf = s.buf := rfl
@[simp] theorem setInputs_err (rest : List Input) (s : State) : (setInputs rest s).err = s.err := rfl
@[simp] theorem setInputs_mrdy (rest : List Input) (s : State) : (setInputs rest s).mrdy = s.mrdy := rfl
@[simp] theorem setInputs_bvalid (rest : List Input) (s : State) : (setInputs rest s).bvalid = s.bvalid := rfl
@[simp] theorem setInputs_env (rest : List Input) (s : State) : (setInputs rest s).env = s.env := rfl
@[simp] theorem setInputs_inputs (rest : List Input) (s : State) : (setInputs rest s).inputs = rest := rfl
@[simp] theorem setInputs_samples (rest : List Input) (s : State) : (setInputs rest s).samples = s.samples := rfl

@[simp] theorem applyReset_fb (src : List Amp) (s : State) : (applyReset src s).fb = s.env.amp.zero := rfl
@[simp] theorem applyReset_slope (src : List Amp) (s : State) : (applyReset src s).slope = s.env.amp.zero := rfl
@[simp] theorem applyReset_idx (src : List Amp) (s : State) : (applyReset src s).idx = 0 := rfl
@[simp] theorem applyReset_seq (src : List Amp) (s : State) : (applyReset src s).seq = [] := rfl
@[simp] theorem applyReset_buf (src : List Amp) (s : State) : (applyReset src s).buf = [] := rfl
@[simp] theorem applyReset_err (src : List Amp) (s : State) : (applyReset src s).err = .none := rfl
@[simp] theorem applyReset_mrdy (src : List Amp) (s : State) : (applyReset src s).mrdy = false := rfl
@[simp] theorem applyReset_bvalid (src : List Amp) (s : State) : (applyReset src s).bvalid = false := rfl
@[simp] theorem applyReset_env (src : List Amp) (s : State) : (applyReset src s).env = { amp := s.env.amp, src := src, run := s.env.run + 1 } := rfl
@[simp] theorem applyReset_inputs (src : List Amp) (s : State) : (applyReset src s).inputs = s.inputs := rfl
@[simp] theorem applyReset_samples (src : List Amp) (s : State) : (applyReset src s).samples = s.samples := rfl

end Sys2Proof.Machine
end

