-- ==== Sys2Proof/Laws/Ops.lean ====
section
/-! SUPPORT. What the shared operations can do, said once: the halted guard, and the memory `BUF` (read after write, the
canonical form kept). -/

namespace Sys2Proof.Machine

@[simp] theorem seqCap_eq : Config.seqCap = 232 := rfl

@[simp] theorem bufLen_eq : Config.bufLen = 30 := rfl

@[simp] theorem halted_eq_false_iff (s : State) : s.halted = false ↔ s.err = .none := by
  simp [State.halted]

@[simp] theorem halted_eq_true_iff (s : State) : s.halted = true ↔ s.err ≠ .none := by
  simp [State.halted]

theorem unlessHalted_of_running {s : State} (h : s.err = .none) (f : State → State) : unlessHalted s f = f s := by
  simp [unlessHalted, h]

theorem unlessHalted_of_halted {s : State} (h : s.err ≠ .none) (f : State → State) : unlessHalted s f = s := by
  simp [unlessHalted, h]

/-- Everything the guard can do. -/
theorem unlessHalted_cases (s : State) (f : State → State) :
    (s.err ≠ .none ∧ unlessHalted s f = s) ∨ (s.err = .none ∧ unlessHalted s f = f s) := by
  by_cases h : s.err = .none
  · exact .inr ⟨h, unlessHalted_of_running h f⟩
  · exact .inl ⟨h, unlessHalted_of_halted h f⟩

theorem illegalCommand_of_running {s : State} (h : s.err = .none) : illegalCommand s = raise .illegalCommand s :=
  unlessHalted_of_running h _

theorem illegalCommand_of_halted {s : State} (h : s.err ≠ .none) : illegalCommand s = s :=
  unlessHalted_of_halted h _

/-! ### The memory -/

@[simp] theorem memRead_nil (a : Nat) : memRead [] a = none := rfl

theorem memRead_memWrite_same (m : Memory) (a : Nat) (v : Byte) : memRead (memWrite m a v) a = some v := by
  induction m with
  | nil => simp [memWrite, memRead]
  | cons c rest ih =>
    unfold memWrite
    split
    · simp [memRead]
    · split
      · simp [memRead]
      · rename_i h1 h2
        simp [memRead, Ne.symm h2, ih]

theorem memRead_memWrite_other (m : Memory) {a b : Nat} (v : Byte) (h : b ≠ a) :
    memRead (memWrite m a v) b = memRead m b := by
  induction m with
  | nil => simp [memWrite, memRead, Ne.symm h]
  | cons c rest ih =>
    unfold memWrite
    split
    · simp [memRead, Ne.symm h]
    · split
      · rename_i h2
        simp [memRead, Ne.symm h, ← h2]
      · simp [memRead, ih]

/-- Every entry of the memory after a write is the written one or was there before. -/
theorem mem_memWrite {m : Memory} {a : Nat} {v : Byte} {c : Host.Cell} (h : c ∈ memWrite m a v) : c = (a, v) ∨ c ∈ m := by
  induction m with
  | nil => exact .inl (by simpa [memWrite] using h)
  | cons d rest ih =>
    unfold memWrite at h
    split at h
    · simpa using h
    · split at h
      · rcases List.mem_cons.mp h with h | h
        · exact .inl h
        · exact .inr (List.mem_cons_of_mem _ h)
      · rcases List.mem_cons.mp h with h | h
        · exact .inr (h ▸ List.mem_cons_self)
        · rcases ih h with h | h
          · exact .inl h
          · exact .inr (List.mem_cons_of_mem _ h)

/-- A write at an address that exists keeps the canonical form. -/
theorem memWrite_wf {m : Memory} {a : Nat} (v : Byte) (hm : Memory.wf m) (ha : a < Config.bufLen) :
    Memory.wf (memWrite m a v) := by
  refine ⟨?_, fun c hc => (mem_memWrite hc).elim (fun h => by simpa [h] using ha) (hm.2 c)⟩
  have hs := hm.1
  clear hm ha
  induction m with
  | nil => simp [memWrite]
  | cons d rest ih =>
    obtain ⟨hd, hr⟩ := List.pairwise_cons.mp hs
    unfold memWrite
    split
    · rename_i h
      refine List.pairwise_cons.mpr ⟨fun c hc => ?_, hs⟩
      rcases List.mem_cons.mp hc with rfl | hc
      · exact h
      · exact h.trans (hd c hc)
    · split
      · rename_i h
        exact List.pairwise_cons.mpr ⟨fun c hc => by simpa [h] using hd c hc, hr⟩
      · rename_i h1 h2
        refine List.pairwise_cons.mpr ⟨fun c hc => ?_, ih hr⟩
        rcases mem_memWrite hc with rfl | hc
        · show d.1 < a
          omega
        · exact hd c hc

theorem memWriteAll_wf {m : Memory} {a : Nat} {vs : List Byte} (hm : Memory.wf m) (ha : a + vs.length ≤ Config.bufLen) :
    Memory.wf (memWriteAll m a vs) := by
  induction vs generalizing m a with
  | nil => exact hm
  | cons v rest ih =>
    simp only [List.length_cons, Config.bufLen] at ha
    exact ih (memWrite_wf v hm (show a < 30 by omega)) (show a + 1 + rest.length ≤ 30 by omega)

theorem nil_wf : Memory.wf [] := ⟨.nil, fun _ h => absurd h List.not_mem_nil⟩

theorem memRead_memWriteAll_outside {m : Memory} {a b : Nat} {vs : List Byte} (h : b < a ∨ a + vs.length ≤ b) :
    memRead (memWriteAll m a vs) b = memRead m b := by
  induction vs generalizing m a with
  | nil => rfl
  | cons v rest ih =>
    simp only [List.length_cons] at h
    rw [memWriteAll, ih (by omega), memRead_memWrite_other m v (by omega)]

theorem memRead_memWriteAll_inside {m : Memory} {a i : Nat} {vs : List Byte} (h : i < vs.length) :
    memRead (memWriteAll m a vs) (a + i) = vs[i]? := by
  induction vs generalizing m a i with
  | nil => simp at h
  | cons v rest ih =>
    rw [memWriteAll]
    cases i with
    | zero => simp [memRead_memWriteAll_outside (m := memWrite m a v) (a := a + 1) (b := a) (vs := rest) (by omega), memRead_memWrite_same]
    | succ i =>
      have := ih (m := memWrite m a v) (a := a + 1) (i := i) (by simpa using h)
      simpa [Nat.add_assoc, Nat.add_comm 1 i] using this

/-- What is read back from bytes written in a row. -/
theorem memReadRange_memWriteAll (m : Memory) (a : Nat) (vs : List Byte) :
    memReadRange (memWriteAll m a vs) a vs.length = some vs := by
  induction vs generalizing m a with
  | nil => rfl
  | cons v rest ih =>
    rw [List.length_cons, memReadRange, memWriteAll, ih,
      memRead_memWriteAll_outside (by omega), memRead_memWrite_same]

theorem memReadRange_length {m : Memory} {a n : Nat} {vs : List Byte} (h : memReadRange m a n = some vs) :
    vs.length = n := by
  induction n generalizing a vs with
  | zero => simp [memReadRange] at h; simp [← h]
  | succ n ih =>
    rw [memReadRange] at h
    split at h
    · rename_i v ws _ hr
      cases h
      simp [ih hr]
    · cases h

end Sys2Proof.Machine
end

