-- ==== Sys2Proof/Laws/Commands.lean ====
section
/-! SUPPORT. What each command can do, said once: in a running block, which of its cases it takes; halted, none. -/

namespace Sys2Proof.Machine

theorem slopeFault_eq_none_iff (k : AmpKind) (a : Amp) : slopeFault k a = none ↔ k.gt0 a = true := by
  simp [slopeFault]

/-- What RUN's operand checks can answer (R172). -/
theorem runOperandFault_cases (k : AmpKind) (n : BitVec 16) (a : Amp) :
    (n.toNat < 2 ∧ runOperandFault k n a = some .lengthError) ∨
    (232 < n.toNat ∧ runOperandFault k n a = some .bufferOverflow) ∨
    (2 ≤ n.toNat ∧ n.toNat ≤ 232 ∧ k.gt0 a = false ∧ runOperandFault k n a = some .paramError) ∨
    (2 ≤ n.toNat ∧ n.toNat ≤ 232 ∧ k.gt0 a = true ∧ runOperandFault k n a = none) := by
  unfold runOperandFault slopeFault sampleCount
  by_cases h1 : n.toNat < 2
  · exact .inl ⟨h1, by simp [h1]⟩
  by_cases h2 : 232 < n.toNat
  · exact .inr (.inl ⟨h2, by simp [h1, h2]⟩)
  cases h3 : k.gt0 a
  · exact .inr (.inr (.inl ⟨by omega, by omega, rfl, by simp [h1, h2]⟩))
  · exact .inr (.inr (.inr ⟨by omega, by omega, rfl, by simp [h1, h2]⟩))

theorem cmdMinit_running {a : Amp} {s : State} (h : s.err = .none) :
    cmdMinit a s = if s.env.amp.gt0 a then newModulator a s else raise .paramError s := by
  rw [cmdMinit, unlessHalted_of_running h]
  cases hg : s.env.amp.gt0 a <;> simp [slopeFault, hg]

theorem cmdMadv_running {s : State} (h : s.err = .none) :
    cmdMadv s = if s.mrdy then modStep s else raise .notInitialised s := by
  rw [cmdMadv, unlessHalted_of_running h]

theorem cmdCapt_running {s : State} (h : s.err = .none) :
    cmdCapt s =
      if s.mrdy = false then raise .notInitialised s
      else if s.seq.length = 232 then raise .bufferOverflow s
      else appendBit s.decision (modStep s) := by
  rw [cmdCapt, unlessHalted_of_running h]
  cases s.mrdy <;> rfl

theorem cmdSclr_running {s : State} (h : s.err = .none) : cmdSclr s = storeSeq [] s := by
  rw [cmdSclr, unlessHalted_of_running h]

theorem cmdSpush_running {b : Bit} {s : State} (h : s.err = .none) :
    cmdSpush b s = if s.seq.length = 232 then raise .bufferOverflow s else appendBit b s := by
  rw [cmdSpush, unlessHalted_of_running h]
  rfl

theorem cmdRot_running {s : State} (h : s.err = .none) :
    cmdRot s =
      if s.seq.length < 2 then raise .lengthError s
      else match rotate s.seq with
        | none => raise .rotationError s
        | some r => storeSeq r s := by
  rw [cmdRot, unlessHalted_of_running h]
  rfl

theorem cmdPack_running {s : State} (h : s.err = .none) :
    cmdPack s =
      if s.seq.length = 0 then raise .lengthError s
      else if 232 < s.seq.length then raise .bufferOverflow s
      else storeBuf (packBits s.seq) s := by
  rw [cmdPack, unlessHalted_of_running h]
  rfl

theorem cmdMinit_halted {a : Amp} {s : State} (h : s.err ≠ .none) : cmdMinit a s = s := unlessHalted_of_halted h _
theorem cmdMadv_halted {s : State} (h : s.err ≠ .none) : cmdMadv s = s := unlessHalted_of_halted h _
theorem cmdCapt_halted {s : State} (h : s.err ≠ .none) : cmdCapt s = s := unlessHalted_of_halted h _
theorem cmdSclr_halted {s : State} (h : s.err ≠ .none) : cmdSclr s = s := unlessHalted_of_halted h _
theorem cmdSpush_halted {b : Bit} {s : State} (h : s.err ≠ .none) : cmdSpush b s = s := unlessHalted_of_halted h _
theorem cmdRot_halted {s : State} (h : s.err ≠ .none) : cmdRot s = s := unlessHalted_of_halted h _
theorem cmdPack_halted {s : State} (h : s.err ≠ .none) : cmdPack s = s := unlessHalted_of_halted h _
theorem cmdRun_halted {n : BitVec 16} {a : Amp} {s : State} (h : s.err ≠ .none) : cmdRun n a s = s :=
  unlessHalted_of_halted h _

/-- RUN past its operand checks: its sub-steps in order (R173). -/
theorem cmdRun_checked {n : BitVec 16} {a : Amp} {s : State} (h : s.err = .none)
    (hn : runOperandFault s.env.amp n a = none) :
    cmdRun n a s = cmdPack (cmdRot (captTimes n.toNat (storeSeq [] (newModulator a s)))) := by
  have hg : s.env.amp.gt0 a = true := by
    rcases runOperandFault_cases s.env.amp n a with ⟨_, h'⟩ | ⟨_, h'⟩ | ⟨_, _, _, h'⟩ | ⟨_, _, hg, _⟩ <;> simp_all
  rw [cmdRun, unlessHalted_of_running h, hn]
  simp only [runCapture, sampleCount]
  rw [cmdMinit_running h, if_pos hg, cmdSclr_running (by simpa using h)]

/-! ### Everything each command can do -/

theorem cmdMinit_cases (a : Amp) (s : State) :
    (s.err ≠ .none ∧ cmdMinit a s = s) ∨
    (s.err = .none ∧ s.env.amp.gt0 a = false ∧ cmdMinit a s = raise .paramError s) ∨
    (s.err = .none ∧ s.env.amp.gt0 a = true ∧ cmdMinit a s = newModulator a s) := by
  by_cases h : s.err = .none
  · rw [cmdMinit_running h]
    cases s.env.amp.gt0 a <;> simp [h]
  · exact .inl ⟨h, cmdMinit_halted h⟩

theorem cmdMadv_cases (s : State) :
    (s.err ≠ .none ∧ cmdMadv s = s) ∨
    (s.err = .none ∧ s.mrdy = false ∧ cmdMadv s = raise .notInitialised s) ∨
    (s.err = .none ∧ s.mrdy = true ∧ cmdMadv s = modStep s) := by
  by_cases h : s.err = .none
  · rw [cmdMadv_running h]
    cases s.mrdy <;> simp [h]
  · exact .inl ⟨h, cmdMadv_halted h⟩

theorem cmdCapt_cases (s : State) :
    (s.err ≠ .none ∧ cmdCapt s = s) ∨
    (s.err = .none ∧ s.mrdy = false ∧ cmdCapt s = raise .notInitialised s) ∨
    (s.err = .none ∧ s.mrdy = true ∧ s.seq.length = 232 ∧ cmdCapt s = raise .bufferOverflow s) ∨
    (s.err = .none ∧ s.mrdy = true ∧ s.seq.length ≠ 232 ∧ cmdCapt s = appendBit s.decision (modStep s)) := by
  by_cases h : s.err = .none
  · rw [cmdCapt_running h]
    cases s.mrdy <;> by_cases hl : s.seq.length = 232 <;> simp [h, hl]
  · exact .inl ⟨h, cmdCapt_halted h⟩

theorem cmdSclr_cases (s : State) :
    (s.err ≠ .none ∧ cmdSclr s = s) ∨ (s.err = .none ∧ cmdSclr s = storeSeq [] s) := by
  by_cases h : s.err = .none
  · exact .inr ⟨h, cmdSclr_running h⟩
  · exact .inl ⟨h, cmdSclr_halted h⟩

theorem cmdSpush_cases (b : Bit) (s : State) :
    (s.err ≠ .none ∧ cmdSpush b s = s) ∨
    (s.err = .none ∧ s.seq.length = 232 ∧ cmdSpush b s = raise .bufferOverflow s) ∨
    (s.err = .none ∧ s.seq.length ≠ 232 ∧ cmdSpush b s = appendBit b s) := by
  by_cases h : s.err = .none
  · rw [cmdSpush_running h]
    by_cases hl : s.seq.length = 232 <;> simp [h, hl]
  · exact .inl ⟨h, cmdSpush_halted h⟩

theorem cmdRot_cases (s : State) :
    (s.err ≠ .none ∧ cmdRot s = s) ∨
    (s.err = .none ∧ s.seq.length < 2 ∧ cmdRot s = raise .lengthError s) ∨
    (s.err = .none ∧ 2 ≤ s.seq.length ∧ rotate s.seq = none ∧ cmdRot s = raise .rotationError s) ∨
    (∃ r, s.err = .none ∧ 2 ≤ s.seq.length ∧ rotate s.seq = some r ∧ cmdRot s = storeSeq r s) := by
  by_cases h : s.err = .none
  · rw [cmdRot_running h]
    by_cases hl : s.seq.length < 2
    · simp [h, hl]
    · cases hr : rotate s.seq <;> simp [h, hl] <;> omega
  · exact .inl ⟨h, cmdRot_halted h⟩

theorem cmdPack_cases (s : State) :
    (s.err ≠ .none ∧ cmdPack s = s) ∨
    (s.err = .none ∧ s.seq.length = 0 ∧ cmdPack s = raise .lengthError s) ∨
    (s.err = .none ∧ 232 < s.seq.length ∧ cmdPack s = raise .bufferOverflow s) ∨
    (s.err = .none ∧ 1 ≤ s.seq.length ∧ s.seq.length ≤ 232 ∧ cmdPack s = storeBuf (packBits s.seq) s) := by
  by_cases h : s.err = .none
  · rw [cmdPack_running h]
    by_cases hl : s.seq.length = 0
    · exact .inr (.inl ⟨h, hl, if_pos hl⟩)
    · rw [if_neg hl]
      by_cases h2 : 232 < s.seq.length
      · exact .inr (.inr (.inl ⟨h, h2, if_pos h2⟩))
      · exact .inr (.inr (.inr ⟨h, by omega, by omega, if_neg h2⟩))
  · exact .inl ⟨h, cmdPack_halted h⟩

theorem cmdRun_cases (n : BitVec 16) (a : Amp) (s : State) :
    (s.err ≠ .none ∧ cmdRun n a s = s) ∨
    (∃ c, s.err = .none ∧ runOperandFault s.env.amp n a = some c ∧ cmdRun n a s = raise c s) ∨
    (s.err = .none ∧ runOperandFault s.env.amp n a = none ∧
      cmdRun n a s = cmdPack (cmdRot (captTimes n.toNat (storeSeq [] (newModulator a s))))) := by
  by_cases h : s.err = .none
  · cases hf : runOperandFault s.env.amp n a with
    | none => exact .inr (.inr ⟨h, rfl, cmdRun_checked h hf⟩)
    | some c => exact .inr (.inl ⟨c, h, rfl, by rw [cmdRun, unlessHalted_of_running h, hf]⟩)
  · exact .inl ⟨h, cmdRun_halted h⟩

/-- CAPT once more, at the end. -/
theorem captTimes_succ (n : Nat) (s : State) : captTimes (n + 1) s = cmdCapt (captTimes n s) := by
  induction n generalizing s with
  | zero => rfl
  | succ n ih => exact ih (cmdCapt s)

/-- A property that every sub-step keeps holds after `n` CAPTs. -/
theorem captTimes_induction {P : State → Prop} (hP : ∀ s, P s → P (cmdCapt s)) :
    ∀ (n : Nat) (s : State), P s → P (captTimes n s)
  | 0, _, h => h
  | n + 1, s, h => captTimes_induction hP n (cmdCapt s) (hP s h)

/-! ### The modulator step, field by field -/

@[simp] theorem modStep_fb (s : State) : (modStep s).fb = s.nextFb := rfl
@[simp] theorem modStep_slope (s : State) : (modStep s).slope = s.slope := rfl
@[simp] theorem modStep_idx (s : State) : (modStep s).idx = s.idx + 1 := rfl
@[simp] theorem modStep_seq (s : State) : (modStep s).seq = s.seq := rfl
@[simp] theorem modStep_buf (s : State) : (modStep s).buf = s.buf := rfl
@[simp] theorem modStep_err (s : State) : (modStep s).err = s.err := rfl
@[simp] theorem modStep_mrdy (s : State) : (modStep s).mrdy = s.mrdy := rfl
@[simp] theorem modStep_bvalid (s : State) : (modStep s).bvalid = s.bvalid := rfl
@[simp] theorem modStep_env (s : State) : (modStep s).env = s.env := rfl
@[simp] theorem modStep_inputs (s : State) : (modStep s).inputs = s.inputs := rfl
@[simp] theorem modStep_samples (s : State) : (modStep s).samples = s.samples ++ [s.nextSample] := rfl

/-! ### What every update keeps, every command keeps -/

/-- The state a command leaves.  `exec` always answers it (`exec_eq_after`). -/
def after : Instr → State → State
  | .nop, s => s
  | .run n a, s => cmdRun n a s
  | .minit a, s => cmdMinit a s
  | .madv, s => cmdMadv s
  | .capt, s => cmdCapt s
  | .sclr, s => cmdSclr s
  | .spush b, s => cmdSpush b s
  | .rot, s => cmdRot s
  | .pack, s => cmdPack s

theorem exec_eq_after (i : Instr) (s : State) : exec i s = .next (after i s) := by cases i <;> rfl

/-- A relation that holds across every named update a command can make, each under what is known where it is made. -/
structure KeptByUpdates (R : State → State → Prop) : Prop where
  refl : ∀ s, R s s
  trans : ∀ s t u, R s t → R t u → R s u
  raise : ∀ c s, s.err = .none → R s (raise c s)
  newModulator : ∀ a s, s.err = .none → s.env.amp.gt0 a = true → R s (newModulator a s)
  modStep : ∀ s, s.err = .none → s.mrdy = true → R s (modStep s)
  clear : ∀ s, s.err = .none → R s (storeSeq [] s)
  rotated : ∀ r s, s.err = .none → 2 ≤ s.seq.length → rotate s.seq = some r → R s (storeSeq r s)
  append : ∀ b s, s.err = .none → s.seq.length ≠ 232 → R s (appendBit b s)
  pack : ∀ s, s.err = .none → 1 ≤ s.seq.length → s.seq.length ≤ 232 → R s (storeBuf (packBits s.seq) s)

theorem KeptByUpdates.capt {R : State → State → Prop} (K : KeptByUpdates R) (s : State) : R s (cmdCapt s) := by
  rcases cmdCapt_cases s with ⟨_, e⟩ | ⟨h, _, e⟩ | ⟨h, _, _, e⟩ | ⟨h, hm, hl, e⟩ <;> rw [e]
  · exact K.refl s
  · exact K.raise _ _ h
  · exact K.raise _ _ h
  · exact K.trans _ _ _ (K.modStep s h hm) (K.append _ _ h hl)

theorem KeptByUpdates.rot {R : State → State → Prop} (K : KeptByUpdates R) (s : State) : R s (cmdRot s) := by
  rcases cmdRot_cases s with ⟨_, e⟩ | ⟨h, _, e⟩ | ⟨h, _, _, e⟩ | ⟨r, h, hl, hr, e⟩ <;> rw [e]
  · exact K.refl s
  · exact K.raise _ _ h
  · exact K.raise _ _ h
  · exact K.rotated _ _ h hl hr

theorem KeptByUpdates.packed {R : State → State → Prop} (K : KeptByUpdates R) (s : State) : R s (cmdPack s) := by
  rcases cmdPack_cases s with ⟨_, e⟩ | ⟨h, _, e⟩ | ⟨h, _, e⟩ | ⟨h, h1, h2, e⟩ <;> rw [e]
  · exact K.refl s
  · exact K.raise _ _ h
  · exact K.raise _ _ h
  · exact K.pack _ h h1 h2

/-- The induction over a command's updates, once: a relation kept by every update is kept by every command. -/
theorem KeptByUpdates.after {R : State → State → Prop} (K : KeptByUpdates R) (i : Instr) (s : State) :
    R s (after i s) := by
  cases i with
  | nop => exact K.refl s
  | capt => exact K.capt s
  | rot => exact K.rot s
  | pack => exact K.packed s
  | minit a =>
    show R s (cmdMinit a s)
    rcases cmdMinit_cases a s with ⟨_, e⟩ | ⟨h, _, e⟩ | ⟨h, hg, e⟩ <;> rw [e]
    · exact K.refl s
    · exact K.raise _ _ h
    · exact K.newModulator _ _ h hg
  | madv =>
    show R s (cmdMadv s)
    rcases cmdMadv_cases s with ⟨_, e⟩ | ⟨h, _, e⟩ | ⟨h, hm, e⟩ <;> rw [e]
    · exact K.refl s
    · exact K.raise _ _ h
    · exact K.modStep s h hm
  | sclr =>
    show R s (cmdSclr s)
    rcases cmdSclr_cases s with ⟨_, e⟩ | ⟨h, e⟩ <;> rw [e]
    · exact K.refl s
    · exact K.clear s h
  | spush b =>
    show R s (cmdSpush b s)
    rcases cmdSpush_cases b s with ⟨_, e⟩ | ⟨h, _, e⟩ | ⟨h, hl, e⟩ <;> rw [e]
    · exact K.refl s
    · exact K.raise _ _ h
    · exact K.append _ _ h hl
  | run n a =>
    show R s (cmdRun n a s)
    rcases cmdRun_cases n a s with ⟨_, e⟩ | ⟨c, h, _, e⟩ | ⟨h, hf, e⟩ <;> rw [e]
    · exact K.refl s
    · exact K.raise _ _ h
    · have hg : s.env.amp.gt0 a = true := by
        rcases runOperandFault_cases s.env.amp n a with ⟨_, h'⟩ | ⟨_, h'⟩ | ⟨_, _, _, h'⟩ | ⟨_, _, hg, _⟩ <;> simp_all
      refine K.trans _ _ _ (captTimes_induction (P := R s) (fun t ht => K.trans _ _ _ ht (K.capt t)) _ _ ?_)
        (K.trans _ _ _ (K.rot _) (K.packed _))
      exact K.trans _ _ _ (K.newModulator a s h hg) (K.clear _ h)

/-- A next state of `exec` is related to the state before by every relation the updates keep. -/
theorem KeptByUpdates.exec {R : State → State → Prop} (K : KeptByUpdates R) {i : Instr} {s t : State}
    (h : exec i s = .next t) : R s t := by
  rw [exec_eq_after] at h
  cases h
  exact K.after i s

/-! ### One step -/

theorem step_idle {s : State} (h : s.inputs = []) : step s = .next s := by
  simp only [step, h]

theorem step_reset {s : State} {src : List Amp} {rest : List Input} (h : s.inputs = .reset src :: rest) :
    step s = .next (applyReset src (setInputs rest s)) := by
  simp only [step, h]

theorem step_illegal {s : State} {p : Ports} {rest : List Input} {e : DecodeError}
    (h : s.inputs = .command p :: rest) (hd : decode p = .error e) :
    step s = .next (illegalCommand (setInputs rest s)) := by
  simp only [step, h, hd]

end Sys2Proof.Machine
end

