-- ==== Sys2Proof/Laws/Packer.lean ====
section
/-! SUPPORT. The sizes of the packer's intermediate buffers. -/

namespace Sys2Proof.Machine

@[simp] theorem packHeader_length (L : Nat) : (packHeader L).length = 30 := by simp [packHeader]

@[simp] theorem placeBit_length (s : List Bit) (buf : List Byte) (k : Nat) : (placeBit s buf k).length = buf.length := by
  simp [placeBit]

@[simp] theorem packPayload_length (s : List Bit) (n : Nat) : (packPayload s n).length = 30 := by
  induction n with
  | zero => simp [packPayload]
  | succ n ih => simpa [packPayload, List.range_succ, List.foldl_append] using ih

@[simp] theorem packBits_length (s : List Bit) : (packBits s).length = 30 := by simp [packBits, copyLast]

theorem packPayload_succ (s : List Bit) (n : Nat) : packPayload s (n + 1) = placeBit s (packPayload s n) n := by
  simp [packPayload, List.range_succ, List.foldl_append]

end Sys2Proof.Machine
end

