-- ==== Sys2Proof/Laws/PerInstr.lean ====
section
/-! SUPPORT. What holds of every command as syntax, one lemma per constructor. -/

/-- The family `Opcode`: the opcode a command is encoded with has the unit and function fields of R71 and R72, and the encoder
puts exactly that opcode on the port. -/
def Sys2Proof.Laws.Opcode.Statement (i : Sys2Proof.Instr) : Prop :=
  (∀ k, (Sys2Proof.encode k i).op = i.opcode) ∧
    (Sys2Proof.opUnit i.opcode, Sys2Proof.opFn i.opcode) =
      match i with
      | .nop => (0#2, 0#2)
      | .run _ _ => (0#2, 1#2)
      | .minit _ => (1#2, 0#2)
      | .madv => (1#2, 1#2)
      | .capt => (1#2, 2#2)
      | .sclr => (2#2, 0#2)
      | .spush _ => (2#2, 1#2)
      | .rot => (2#2, 2#2)
      | .pack => (3#2, 0#2)

theorem Sys2Proof.Laws.Opcode.nop : Sys2Proof.Laws.Opcode.Statement .nop := ⟨fun _ => rfl, rfl⟩

theorem Sys2Proof.Laws.Opcode.run (n : BitVec 16) (a : Sys2Proof.Amp) :
    Sys2Proof.Laws.Opcode.Statement (.run n a) :=
  ⟨fun _ => rfl, by simp only [Sys2Proof.Instr.opcode]; decide⟩

theorem Sys2Proof.Laws.Opcode.minit (a : Sys2Proof.Amp) : Sys2Proof.Laws.Opcode.Statement (.minit a) :=
  ⟨fun _ => rfl, by simp only [Sys2Proof.Instr.opcode]; decide⟩

theorem Sys2Proof.Laws.Opcode.madv : Sys2Proof.Laws.Opcode.Statement .madv := ⟨fun _ => rfl, rfl⟩

theorem Sys2Proof.Laws.Opcode.capt : Sys2Proof.Laws.Opcode.Statement .capt := ⟨fun _ => rfl, rfl⟩

theorem Sys2Proof.Laws.Opcode.sclr : Sys2Proof.Laws.Opcode.Statement .sclr := ⟨fun _ => rfl, rfl⟩

theorem Sys2Proof.Laws.Opcode.spush (b : Sys2Proof.Bit) : Sys2Proof.Laws.Opcode.Statement (.spush b) :=
  ⟨fun _ => rfl, by simp only [Sys2Proof.Instr.opcode]; decide⟩

theorem Sys2Proof.Laws.Opcode.rot : Sys2Proof.Laws.Opcode.Statement .rot := ⟨fun _ => rfl, rfl⟩

theorem Sys2Proof.Laws.Opcode.pack : Sys2Proof.Laws.Opcode.Statement .pack := ⟨fun _ => rfl, rfl⟩
end

