-- ==== Sys2Proof/Laws/Runs.lean ====
section
/-! SUPPORT. Steps in a row: a presented command is executed, and the host's run is `runSteps`. -/

namespace Sys2Proof

open Machine

/-- One step on an encoded command is `exec` of it. -/
theorem step_present (k : AmpKind) (i : Instr) (s : State) (rest : List Input) :
    step { s with inputs := present k i :: rest } = exec i { s with inputs := rest } := by
  cases i <;> rfl

theorem runSteps_succ_next {n : Nat} {s t : State} (h : step s = .next t) : runSteps (n + 1) s = runSteps n t := by
  rw [runSteps, h]

/-- The host's run of any machine, where one step answers a next state; the other two outcomes follow. -/
theorem coreRun_succ_next (M : Host.Core) {n : Nat} {s t : M.State} (h : M.step s = .next t) :
    M.run (n + 1) s = M.run n t := by rw [Host.Core.run, h]

theorem coreRun_succ_fault (M : Host.Core) {n : Nat} {s : M.State} {r : M.Fault} (h : M.step s = .fault r) :
    M.run (n + 1) s = .fault r := by rw [Host.Core.run, h]

theorem coreRun_succ_refused (M : Host.Core) {n : Nat} {s : M.State} {r : M.Refusal} (h : M.step s = .refused r) :
    M.run (n + 1) s = .refused r := by rw [Host.Core.run, h]

/-- `runSteps` is the host's run of the machine. -/
theorem coreRun_eq_runSteps (n : Nat) (s : State) : core.run n s = runSteps n s := by
  induction n generalizing s with
  | zero => rfl
  | succ n ih =>
    rw [runSteps]
    cases h : step s with
    | next t => exact (coreRun_succ_next core h).trans (ih t)
    | fault r => exact coreRun_succ_fault core h
    | refused r => exact coreRun_succ_refused core h

end Sys2Proof
end

