-- ==== Sys2Proof/Tests/Slice0.lean ====
section
/-! SUPPORT. Tests of the model on values from spec/95_test_vectors.md and from the rules, and for every statement with
hypotheses a state and operands that meet them. -/

namespace Sys2Proof.Tests

open Machine

/-! ### Small states -/

/-- The four ports with this `op`, the operand ports filled with values no command may look at unless it uses them. -/
def ports (op : BitVec 4) : Ports := { op := op, argN := 999#16, argAmp := .rat (-1), argBit := true }

/-- A block without faults whose modulator has step 1/4, over these command values. -/
def running (src : List Rat) : State :=
  { State.reset with slope := .rat (1 / 4), mrdy := true, env := { amp := .q, src := src.map .rat, run := 0 } }

/-- A store with these bits, no modulator. -/
def holding (q : List Nat) : State := { State.reset with seq := q.map (· == 1) }

/-- The state after reset, a fault recorded. -/
def halted : State := { State.reset with err := .lengthError }

/-- `s` with these inputs to come. -/
def facing (l : List Input) (s : State) : State := { s with inputs := l }

/-- What `f` shows of the state an outcome leads to. -/
def shows {α : Type} (o : Host.Outcome State Fault Refusal) (f : State → α) : Option α :=
  match o with
  | .next t => some (f t)
  | _ => none

/-- Bits written as numbers. -/
def bits (q : List Nat) : List Bit := q.map (· == 1)

/-- K2's frame of `[1,1,0]`, as bytes. -/
def frameK2 : List Byte := [0x03#8, 0x06#8] ++ List.replicate 27 0x00#8 ++ [0x06#8]

/-- A block with a modulator, a store and a frame in use: what `RUN 4, 1/4` of P1 leaves but for `FB`. -/
def packed : State :=
  { running [0, 1 / 2, 1 / 4, 1 / 4] with
    idx := 0, seq := bits [1, 1, 0], buf := memWriteAll [] 0 (packBits (bits [1, 1, 0])), bvalid := true }

/-! ### Well-formedness: each check refuses an ill-formed command -/

theorem test_wf_minit_needs_a_value_of_the_amp :
    (Instr.minit (.f64 0#64)).wf .q = false ∧ (Instr.minit (.rat 1)).wf .q = true := by decide

theorem test_wf_run_needs_a_value_of_the_amp :
    (Instr.run 4#16 (.rat 1)).wf .f64 = false ∧ (Instr.run 4#16 (.f64 0#64)).wf .f64 = true := by decide

/-! ### Decoding: the words of R72, written out bit by bit -/

theorem test_decode_nop : decode (ports 0b0000#4) = .ok .nop := rfl
theorem test_decode_run : decode (ports 0b0001#4) = .ok (.run 999#16 (.rat (-1))) := rfl
theorem test_decode_minit : decode (ports 0b0100#4) = .ok (.minit (.rat (-1))) := rfl
theorem test_decode_madv : decode (ports 0b0101#4) = .ok .madv := rfl
theorem test_decode_capt : decode (ports 0b0110#4) = .ok .capt := rfl
theorem test_decode_sclr : decode (ports 0b1000#4) = .ok .sclr := rfl
theorem test_decode_spush : decode (ports 0b1001#4) = .ok (.spush true) := rfl
theorem test_decode_rot : decode (ports 0b1010#4) = .ok .rot := rfl
theorem test_decode_pack : decode (ports 0b1100#4) = .ok .pack := rfl
theorem test_decode_reserved :
    [0x2#4, 0x3#4, 0x7#4, 0xB#4, 0xD#4, 0xE#4, 0xF#4].map (fun op => decode (ports op)) =
      [0x2#4, 0x3#4, 0x7#4, 0xB#4, 0xD#4, 0xE#4, 0xF#4].map (fun op => .error (.reservedOp op)) := rfl

/-! ### One step each, from spec/95_test_vectors.md -/

/-- F22: NOP ignores its ports and leaves `STATUS`. -/
theorem test_nop : shows (step (facing [.command (ports 0x0#4)] State.reset)) State.status = some 0x00#8 := by decide

/-- F5, F6: a reserved `op`. -/
theorem test_illegal : shows (step (facing [.command (ports 0x7#4)] State.reset)) State.status = some 0x06#8 := by decide

/-- F20: reset is the way out. -/
theorem test_reset_input : shows (step (facing [.reset []] halted)) State.status = some 0x00#8 := by decide

/-- R6, R105: of a type known only by its interface, zero still passes `amp_ge0` and fails `amp_gt0`. -/
theorem test_minit_zero_custom :
    shows (exec (.minit (.code 0)) { State.reset with env := { amp := .custom, src := [], run := 0 } }) State.status =
      some 0x04#8 ∧ AmpKind.custom.ge0 (.code 0) = true := ⟨rfl, rfl⟩

/-- R104's example: `MINIT 1/4` from reset. -/
theorem test_minit :
    shows (exec (.minit (.rat (1 / 4))) State.reset) (fun t => (t.status, t.slope)) = some (0x10#8, .rat (1 / 4)) := by
  decide +kernel

/-- F3: `MINIT 0`. -/
theorem test_minit_zero : shows (exec (.minit (.rat 0)) State.reset) State.status = some 0x04#8 := by decide +kernel

/-- R106's example: `e = -1/4`, Sample `(1/4, 1/2, 0)`, then `FB = 1/4`. -/
theorem test_madv :
    shows (exec .madv { running [0, 1 / 2, 1 / 4] with fb := .rat (1 / 2), idx := 2 }) (fun t => (t.fb, t.samples)) =
      some (.rat (1 / 4), [⟨.rat (1 / 4), .rat (1 / 2), false⟩]) := by decide +kernel

/-- M5, step 3 of the F64 column: `e = BFA999999999999C`, `d = 0`, `FB` becomes `3FB999999999999B`. -/
theorem test_madv_f64 :
    shows (exec .madv
        { State.reset with
          fb := .f64 0x3FC3333333333334#64, slope := .f64 0x3FA999999999999A#64, idx := 0, mrdy := true
          env := { amp := .f64, src := [.f64 0x3FB999999999999A#64], run := 0 } })
      (fun t => (t.fb, t.samples.map (·.d))) = some (.f64 0x3FB999999999999B#64, [false]) := by decide +kernel

/-- M5, step 4 of the F64 column: the error is `BC70000000000000`. -/
theorem test_f64_sub : f64Sub 0x3FB999999999999A#64 0x3FB999999999999B#64 = 0xBC70000000000000#64 := by decide +kernel

/-- M5, step 2: `0.1 + 0.05` is one unit high. -/
theorem test_f64_add : f64Add 0x3FB999999999999A#64 0x3FA999999999999A#64 = 0x3FC3333333333334#64 := by decide +kernel

/-- R124's example, on a store that holds two bits (section 3 of the vectors). -/
theorem test_capt :
    shows (exec .capt { running [0] with seq := bits [0, 0] }) (fun t => (t.seq, t.fb)) =
      some (bits [0, 0, 1], .rat (1 / 4)) := by decide +kernel

/-- F2: CAPT without a modulator. -/
theorem test_capt_uninitialised : shows (exec .capt State.reset) State.status = some 0x05#8 := by decide

/-- R121's example. -/
theorem test_sclr : shows (exec .sclr (holding [1, 0, 1])) State.slen = some 0 := by decide

/-- R122's example. -/
theorem test_spush : shows (exec (.spush false) (holding [1, 1])) State.seq = some (bits [1, 1, 0]) := by decide

/-- F10: the 233rd bit. -/
theorem test_spush_full :
    shows (exec (.spush false) { State.reset with seq := List.replicate 232 false }) State.status = some 0x02#8 := by
  decide +kernel

/-- T17: case 2 at `i = 3`; the rejected reading of C2 would give another sequence. -/
theorem test_rot : shows (exec .rot (holding [1, 0, 1, 1, 0, 0, 1, 0, 0, 0])) State.seq =
    some (bits [1, 0, 0, 1, 0, 0, 0, 1, 0]) := by decide

/-- T2: RotationError leaves the store. -/
theorem test_rot_alternating :
    shows (exec .rot (holding [0, 1, 0, 1])) (fun t => (t.status, t.seq)) = some (0x01#8, bits [0, 1, 0, 1]) := by decide

/-- T1, T8, T10, T12: case 1, the two ends of the scan, and odd alternation. -/
theorem test_rotate_ends :
    [rotate (bits [0, 0, 1, 1, 0]), rotate (bits [0, 0, 1]), rotate (bits [0, 1, 0, 1, 1]), rotate (bits [0, 1, 0])] =
      [some (bits [0, 0, 1, 1]), some (bits [0, 1]), some (bits [1, 0, 1, 0]), some (bits [0, 1])] := by decide

/-- S5 (the source's): `pack([1,1,0,1])`. -/
theorem test_pack :
    shows (exec .pack (holding [1, 1, 0, 1])) State.frame =
      some (some ([0x04#8, 0x0D#8] ++ List.replicate 27 0x00#8 ++ [0x0D#8])) := by decide +kernel

/-- R86 with S5 and the source's rotation example: `pack([1,1,0,1])` and `rotate_and_drop([0,0,1,1,0])` as command sequences. -/
theorem test_pseudo_commands :
    shows (runSteps 6 (facing ((packCommands (bits [1, 1, 0, 1])).map (present .q)) State.reset)) State.frame =
      some (some ([0x04#8, 0x0D#8] ++ List.replicate 27 0x00#8 ++ [0x0D#8])) ∧
    shows (runSteps 7 (facing ((rotateAndDropCommands (bits [0, 0, 1, 1, 0])).map (present .q)) State.reset)) State.seq =
      some (bits [0, 0, 1, 1]) := by decide +kernel

/-- F7: packing nothing. -/
theorem test_pack_empty : shows (exec .pack State.reset) State.status = some 0x03#8 := by decide

/-- K6, K9: a length that is a multiple of 8, and a last byte that is zero. -/
theorem test_packBits_last_byte :
    packBits (bits [1, 0, 0, 0, 0, 0, 0, 0]) = [0x08#8, 0x80#8] ++ List.replicate 27 0x00#8 ++ [0x80#8] ∧
    packBits (bits [0, 1, 1, 0, 1, 0, 0, 0, 1]) = [0x09#8, 0xD1#8, 0x00#8] ++ List.replicate 26 0x00#8 ++ [0x00#8] := by
  decide +kernel

/-- K15: 225 bits, the first of which is all byte 29 holds. -/
theorem test_packBits_byte29 :
    ((packBits ((List.range 225).map (· % 3 == 0))).getD 28 0#8, (packBits ((List.range 225).map (· % 3 == 0))).getD 29 0#8) =
      (0x24#8, 0x01#8) := by decide +kernel

/-- P1 (the source's end-to-end run): `RUN 4, 1/4` leaves `[1,1,0]` and its frame. -/
theorem test_run :
    shows (exec (.run 4#16 (.rat (1 / 4))) { running [0, 1 / 2, 1 / 4, 1 / 4] with mrdy := false })
      (fun t => (t.seq, t.fb, t.status, t.frame)) =
      some (bits [1, 1, 0], .rat (1 / 2), 0x30#8, some frameK2) := by decide +kernel

/-- P3, command 1: RotationError inside RUN keeps the captures. -/
theorem test_run_rotationError :
    shows (exec (.run 4#16 (.rat (1 / 4))) { running [0, 0, 0, 0] with mrdy := false })
      (fun t => (t.seq, t.idx, t.status, t.samples.length)) = some (bits [1, 0, 1, 0], 4, 0x11#8, 4) := by decide +kernel

/-- An opcode-table word runs as the first command after reset. -/
theorem test_withFetchWord :
    shows (step (State.reset.withFetchWord 8 0b1100)) State.status = some 0x03#8 := by decide

/-- R50, R33: an address that does not exist, and a byte not yet written. -/
theorem test_readBuf :
    State.reset.readBuf 30 = .error (.noSuchAddress 30) ∧ State.reset.readBuf 29 = .error (.notYetWritten 29) := ⟨rfl, rfl⟩

/-! ### Witnesses: the hypotheses of the statements can be met -/

theorem witness_DecoderFollowsTheOpcodeMap :
    (ports 0x0#4).op = 0x0#4 ∧ (ports 0x1#4).op = 0x1#4 ∧ (ports 0x4#4).op = 0x4#4 ∧ (ports 0x5#4).op = 0x5#4 ∧
    (ports 0x6#4).op = 0x6#4 ∧ (ports 0x8#4).op = 0x8#4 ∧ (ports 0x9#4).op = 0x9#4 ∧ (ports 0xA#4).op = 0xA#4 ∧
    (ports 0xC#4).op = 0xC#4 ∧ (ports 0xF#4).op ∈ [0x2#4, 0x3#4, 0x7#4, 0xB#4, 0xD#4, 0xE#4, 0xF#4] := by decide

theorem witness_DecodeAndEncodeAgree : decode (ports 0x9#4) = .ok (.spush true) := rfl

theorem witness_UnusedPortsChangeNothing :
    (ports 0x0#4).op ≠ 0x1#4 ∧ ((ports 0x5#4).op ≠ 0x1#4 ∧ (ports 0x5#4).op ≠ 0x4#4) ∧ (ports 0x8#4).op ≠ 0x9#4 := by decide

theorem witness_StepRunsTheDecodedCommand :
    (facing [.command (ports 0x5#4)] State.reset).inputs = .command (ports 0x5#4) :: [] ∧
      decode (ports 0x5#4) = .ok .madv := ⟨rfl, rfl⟩

theorem witness_ReservedOpRaisesIllegalCommand :
    (facing [.command (ports 0x2#4)] State.reset).inputs = .command (ports 0x2#4) :: [] ∧
      (ports 0x2#4).op ∈ [0x2#4, 0x3#4, 0x7#4, 0xB#4, 0xD#4, 0xE#4, 0xF#4] ∧ State.reset.err = .none ∧
      (facing [.command (ports 0x2#4)] halted).inputs = .command (ports 0x2#4) :: [] ∧ halted.err ≠ .none := by decide

theorem witness_HaltedBlockIgnoresEveryCommand :
    halted.err ≠ .none ∧ (facing [.command (ports 0xF#4)] halted).inputs = .command (ports 0xF#4) :: [] := by decide

theorem witness_ResetInputRestoresTheResetValues :
    (facing [.reset [.rat 1]] halted).inputs = .reset [.rat 1] :: [] ∧ 29 < 30 := ⟨rfl, by decide⟩

theorem witness_IdleBlockWaits : State.reset.inputs = [] := rfl

theorem witness_OnlyResetClearsStatus :
    (step (facing [.command (ports 0x8#4)] { packed with err := .lengthError }) =
        .next (facing [] { packed with err := .lengthError }) ∧
      (∀ src rest, (facing [.command (ports 0x8#4)] { packed with err := .lengthError }).inputs ≠ .reset src :: rest) ∧
      { packed with err := .lengthError }.err ≠ .none ∧ packed.mrdy = true ∧ packed.bvalid = true) ∧
    (facing [.reset []] packed).inputs = .reset [] :: [] ∧
      step (facing [.reset []] packed) = .next (applyReset [] (setInputs [] (facing [.reset []] packed))) :=
  ⟨⟨rfl, by simp [facing], by decide, rfl, rfl⟩, rfl, rfl⟩

theorem witness_FaultsArePrecise :
    State.reset.err = .none ∧ (facing [.command (ports 0x5#4)] State.reset).inputs = .command (ports 0x5#4) :: [] ∧
      step (facing [.command (ports 0x5#4)] State.reset) = .next { State.reset with err := .notInitialised } ∧
      { State.reset with err := .notInitialised }.err ≠ .none ∧ (ports 0x5#4).op ≠ 0x1#4 :=
  ⟨rfl, rfl, rfl, by decide, by decide⟩

/-- The same for RUN, by its second operand check (`arg_n` is 999). -/
theorem witness_FaultsArePrecise_run :
    step (facing [.command (ports 0x1#4)] State.reset) = .next { State.reset with err := .bufferOverflow } ∧
      (ports 0x1#4).op = 0x1#4 ∧ { State.reset with err := .bufferOverflow }.err ≠ .none ∧
      { State.reset with err := .bufferOverflow }.err ≠ .rotationError := ⟨rfl, rfl, by decide, by decide⟩

theorem witness_CommandsRaiseOnlyTheirFaults :
    State.reset.err = .none ∧ exec .pack State.reset = .next { State.reset with err := .lengthError } ∧
      { State.reset with err := .lengthError }.err ≠ .none := ⟨rfl, rfl, by decide⟩

theorem witness_NopHasNoEffect : (ports 0x0#4).op = 0x0#4 := rfl

theorem witness_MinitBuildsAFreshModulator :
    halted.err ≠ .none ∧ State.reset.err = .none ∧ State.reset.env.amp.gt0 (.rat 0) = false ∧
      State.reset.env.amp.gt0 (.rat (1 / 4)) = true ∧ (ports 0x4#4).op = 0x4#4 := by decide +kernel

theorem witness_MadvTakesOneStep :
    halted.err ≠ .none ∧ (State.reset.err = .none ∧ State.reset.mrdy = false) ∧
      ((running [0]).err = .none ∧ (running [0]).mrdy = true) ∧ (ports 0x5#4).op = 0x5#4 := by decide

theorem witness_BinaryQuantizerComparesFiniteValues :
    f64IsFinite 0x7FEFFFFFFFFFFFFF#64 = true ∧ f64IsFinite 0x8000000000000001#64 = true := by decide

theorem witness_NonFiniteDecisions :
    f64IsNaN 0x7FF0000000000001#64 = true ∧
    (f64IsInf 0xFFF0000000000000#64 = true ∧ f64IsInf 0xFFF0000000000000#64 = true ∧
      f64Sign 0xFFF0000000000000#64 = f64Sign 0xFFF0000000000000#64) ∧
    (f64IsInf 0x7FF0000000000000#64 = true ∧ f64IsFinite 0x7FEFFFFFFFFFFFFF#64 = true) ∧
    f64Sign 0x7FF0000000000000#64 ≠ f64Sign 0xFFF0000000000000#64 := by decide

/-- R112: after a step with `SLOPE = +infinity` the accumulator is infinite, and a finite command value decides -1; against
`-infinity` it decides +1. -/
theorem test_f64_infinite_accumulator :
    [quantize .f64 (.f64 0x3FF0000000000000#64) (.f64 0x7FF0000000000000#64),
      quantize .f64 (.f64 0x3FF0000000000000#64) (.f64 0xFFF0000000000000#64),
      quantize .f64 (.f64 0xFFF0000000000000#64) (.f64 0x7FF0000000000000#64)] = [false, true, false] := by decide +kernel

theorem witness_BinarySumIsRoundedToNearestEven :
    (f64IsFinite 0x3FF0000000000000#64 = true ∧ f64IsFinite 0x3CA0000000000000#64 = true ∧
      f64IsFinite 0x3FF0000000000001#64 = true ∧ f64IsFinite (f64Add 0x3FF0000000000000#64 0x3CA0000000000000#64) = true) ∧
    (f64Int (f64Add 0x3FF0000000000000#64 0x3CA0000000000000#64) -
          (f64Int 0x3FF0000000000000#64 + f64Int 0x3CA0000000000000#64)).natAbs =
        (f64Int 0x3FF0000000000001#64 - (f64Int 0x3FF0000000000000#64 + f64Int 0x3CA0000000000000#64)).natAbs ∧
      f64Int 0x3FF0000000000001#64 ≠ f64Int (f64Add 0x3FF0000000000000#64 0x3CA0000000000000#64) := by decide +kernel

theorem witness_BinarySumOverflowsToInfinity :
    f64IsFinite 0x7FEFFFFFFFFFFFFF#64 = true ∧ f64IsFinite 0x7C90000000000000#64 = true ∧
      f64IsInf (f64Add 0x7FEFFFFFFFFFFFFF#64 0x7C90000000000000#64) = true ∧
      f64IsInf (f64Add 0x7FEFFFFFFFFFFFFF#64 0x7C8FFFFFFFFFFFFF#64) = false := by decide +kernel

theorem witness_CommandsKeepTheSource : exec .sclr (holding [1]) = .next (holding []) := rfl

theorem witness_SclrEmptiesTheStore :
    halted.err ≠ .none ∧ (holding [1, 0, 1]).err = .none ∧ (ports 0x8#4).op = 0x8#4 := by decide

theorem witness_SpushAppendsTheBit :
    halted.err ≠ .none ∧
    ({ State.reset with seq := List.replicate 232 true }.err = .none ∧
      { State.reset with seq := List.replicate 232 true }.slen = 232) ∧
    ({ State.reset with seq := List.replicate 231 true }.err = .none ∧
      { State.reset with seq := List.replicate 231 true }.slen ≠ 232) ∧ (ports 0x9#4).op = 0x9#4 := by decide +kernel

theorem witness_CaptStepsAndCaptures :
    halted.err ≠ .none ∧ (State.reset.err = .none ∧ State.reset.mrdy = false) ∧
    ({ running [] with seq := List.replicate 232 true }.err = .none ∧
      { running [] with seq := List.replicate 232 true }.mrdy = true ∧
      { running [] with seq := List.replicate 232 true }.slen = 232) ∧
    ((running [0]).err = .none ∧ (running [0]).mrdy = true ∧ (running [0]).slen ≠ 232) ∧
    (ports 0x6#4).op = 0x6#4 := by decide +kernel

theorem witness_TakeFirstN :
    State.reset.err = .none ∧ 232 ≤ 232 ∧ State.reset.env.amp.gt0 (.rat (1 / 4)) = true := by decide +kernel

theorem witness_RotReplacesTheStore :
    halted.err ≠ .none ∧ ((holding [1]).err = .none ∧ (holding [1]).slen < 2) ∧
    ((holding [0, 1]).err = .none ∧ 2 ≤ (holding [0, 1]).slen ∧ rotate (holding [0, 1]).seq = none) ∧
    ((holding [1, 1]).err = .none ∧ 2 ≤ (holding [1, 1]).slen ∧ rotate (holding [1, 1]).seq = some [true]) ∧
    (ports 0xA#4).op = 0xA#4 := by decide

theorem witness_RotateFollowsTheThreeCases :
    (2 ≤ (bits [0, 0]).length ∧ (bits [0, 0])[0]? = (bits [0, 0])[1]?) ∧
    (2 ≤ (bits [0, 1, 1]).length ∧ (bits [0, 1, 1])[0]? ≠ (bits [0, 1, 1])[2]? ∧ 1 ≤ 2 ∧ 2 ≤ (bits [0, 1, 1]).length - 1 ∧
      (bits [0, 1, 1])[2 - 1]? = (bits [0, 1, 1])[2]? ∧
      ∀ j, 1 ≤ j → j < 2 → (bits [0, 1, 1])[j - 1]? ≠ (bits [0, 1, 1])[j]?) ∧
    (2 ≤ (bits [0, 1]).length ∧ (bits [0, 1])[0]? ≠ (bits [0, 1])[1]? ∧
      ∀ i, 1 ≤ i → i ≤ (bits [0, 1]).length - 1 → (bits [0, 1])[i - 1]? ≠ (bits [0, 1])[i]?) := by
  refine ⟨by decide, ⟨by decide, by decide, by decide, by decide, by decide, fun j h1 h2 => ?_⟩, by decide, by decide,
    fun i h1 h2 => ?_⟩
  · have : j = 1 := by omega
    subst this
    decide
  · have h2 : i ≤ 1 := h2
    have : i = 1 := by omega
    subst this
    decide

/-- For RotationDropsOneBit, RotationIsTheCircleLessOneOfAPair and RotationKeepsCircularChanges, in cases 1 and 2. -/
theorem witness_RotationDropsOneBit :
    (2 ≤ (bits [0, 0]).length ∧ rotate (bits [0, 0]) = some (bits [0])) ∧
      2 ≤ (bits [0, 0, 1]).length ∧ rotate (bits [0, 0, 1]) = some (bits [0, 1]) := by decide

theorem witness_RotationFailsExactlyOnEvenAlternation :
    (2 ≤ (bits [1, 0]).length ∧ rotate (bits [1, 0]) = none) ∧
      2 ≤ (bits [0, 1, 0]).length ∧ (bits [0, 1, 0]).length % 2 = 1 ∧
      ∀ i, i + 1 < (bits [0, 1, 0]).length → (bits [0, 1, 0])[i]? ≠ (bits [0, 1, 0])[i + 1]? := by
  refine ⟨by decide, by decide, by decide, fun i hi => ?_⟩
  have hi : i + 1 < 3 := by simpa [bits] using hi
  have hi : i < 2 := by omega
  interval_cases i <;> decide

theorem witness_PackWritesTheBuffer :
    halted.err ≠ .none ∧ (State.reset.err = .none ∧ State.reset.slen = 0) ∧
    ({ State.reset with seq := List.replicate 233 true }.err = .none ∧
      232 < { State.reset with seq := List.replicate 233 true }.slen) ∧
    ((holding [1]).err = .none ∧ 1 ≤ (holding [1]).slen ∧ (holding [1]).slen ≤ 232) ∧
    (1 ≤ { State.reset with seq := List.replicate 232 true }.slen ∧
      { State.reset with seq := List.replicate 232 true }.slen ≤ 232) ∧ (ports 0xC#4).op = 0xC#4 := by decide +kernel

/-- For PackedBitsClosedForm and PackingLosesNothing, where the clauses meet: 1, 224, 225 and 232 bits. -/
theorem witness_PackedBitsClosedForm :
    (1 ≤ (bits [1]).length ∧ (bits [1]).length ≤ 232) ∧
    (1 ≤ (List.replicate 224 true).length ∧ (List.replicate 224 true).length ≤ 224) ∧
    (225 ≤ (List.replicate 225 true).length ∧ (List.replicate 232 true).length ≤ 232) ∧
    packBits (bits [1]) = packBits (bits [1]) := by decide +kernel

/-- For PackedBufferAddressMap and PayloadSpellsTheNumeral. -/
theorem witness_PackedBufferAddressMap :
    (holding [1]).err = .none ∧ 1 ≤ (holding [1]).slen ∧ (holding [1]).slen ≤ 232 ∧ 0 < (holding [1]).slen ∧
      7 < 8 ∧ (holding [1]).slen ≤ 8 * (((holding [1]).slen - 1) / 8) + 7 ∧
      1 + ((holding [1]).slen - 1) / 8 < 28 := by decide

theorem witness_PackForgetsTheOldBuffer :
    Memory.wf packed.buf ∧ Memory.wf (holding [1, 1, 0]).buf ∧ packed.err = .none ∧ (holding [1, 1, 0]).err = .none ∧
      packed.seq = (holding [1, 1, 0]).seq ∧ 1 ≤ packed.slen ∧ packed.slen ≤ 232 :=
  ⟨memWriteAll_wf nil_wf (by simp), nil_wf, rfl, rfl, rfl, by decide, by decide⟩

theorem witness_BufferReadsStayInside :
    30 ≤ 30 ∧ (29 < 30 ∧ memRead packed.buf 29 = some 0x06#8) ∧ (0 < 30 ∧ memRead State.reset.buf 0 = none) := by
  decide +kernel

/-- A block with its modulator, its store and its frame in use meets the invariant. -/
theorem witness_BlockInv : BlockInv (facing [present .q .rot, .reset [.rat 1]] packed) where
  storeBounded := by unfold StoreBounded; decide
  bufCanonical := memWriteAll_wf nil_wf (by simp)
  slopePositive := fun _ => by decide +kernel
  frameValid := fun _ =>
    ⟨bits [1, 1, 0], by decide, by decide, by simp, by
      have := memReadRange_memWriteAll [] 0 (packBits (bits [1, 1, 0]))
      rwa [packBits_length] at this⟩
  ampTyped :=
    ⟨rfl, rfl, by simp [facing, packed, running, State.reset, AmpKind.has],
      by simp [facing, present, InputTyped, encode, Instr.portAmp, packed, running, State.reset, AmpKind.has],
      by simp [facing, packed, running, State.reset]⟩

theorem witness_TransportTakesThirtyBytes : Deliverable packed ∧ ¬ Deliverable State.reset ∧ 29 < 30 :=
  ⟨⟨rfl, rfl⟩, (fun h => nomatch h.1), by decide⟩

theorem witness_EveryStepKeepsTheInvariant :
    step (facing [present .q .rot, .reset [.rat 1]] packed) =
      exec .rot (facing [.reset [.rat 1]] packed) := rfl

theorem witness_RunChecksItsOperandsFirst :
    State.reset.err = .none ∧ (1#16).toNat < 2 ∧ 232 < (233#16).toNat ∧ 2 ≤ (2#16).toNat ∧ (232#16).toNat ≤ 232 ∧
      State.reset.env.amp.gt0 (.rat (-1)) = false ∧ State.reset.env.amp.gt0 (.rat 1) = true := by decide +kernel

/-- For RunLeavesThePackedFrame, RunIsItsCommandSequence and RunForgetsThePast: P1's operands and source. -/
theorem witness_RunLeavesThePackedFrame :
    (running [0, 1 / 2, 1 / 4, 1 / 4]).err = .none ∧ packed.err = .none ∧
      (running [0, 1 / 2, 1 / 4, 1 / 4]).env = packed.env ∧
      (∀ j, j < (4#16).toNat →
        command (running [0, 1 / 2, 1 / 4, 1 / 4]).env j = command { packed.env with run := 7 } j) ∧ 2 ≤ (4#16).toNat ∧ (4#16).toNat ≤ 232 ∧
      (running [0, 1 / 2, 1 / 4, 1 / 4]).env.amp.gt0 (.rat (1 / 4)) = true ∧
      rotate (firstBits (running [0, 1 / 2, 1 / 4, 1 / 4]).env (.rat (1 / 4)) (4#16).toNat) = some (bits [1, 1, 0]) := by
  decide +kernel

theorem witness_RunStopsAtRotationError :
    (running [0, 0]).err = .none ∧ 2 ≤ (2#16).toNat ∧ (2#16).toNat ≤ 232 ∧
      (running [0, 0]).env.amp.gt0 (.rat (1 / 4)) = true ∧
      rotate (firstBits (running [0, 0]).env (.rat (1 / 4)) (2#16).toNat) = none := by decide +kernel

/-- For the three frames and CommandsKeepTheSource: next states of ROT, SCLR and MADV. -/
theorem witness_OnlyPackingTouchesTheBuffer :
    Instr.rot ≠ .pack ∧ (∀ n a, Instr.rot ≠ .run n a) ∧ exec .rot (holding [1, 1]) = .next (holding [1]) :=
  ⟨by decide, (fun _ _ h => nomatch h), rfl⟩

theorem witness_StoreCommandsKeepTheModulator :
    (Instr.rot ∈ [Instr.nop, .sclr, .rot, .pack] ∨ ∃ b, Instr.rot = .spush b) ∧
      exec .rot (holding [1, 1]) = .next (holding [1]) := ⟨.inl (by decide), rfl⟩

theorem witness_ModulatorCommandsKeepTheStore :
    exec .madv (running [0]) = .next (modStep (running [0])) ∧ Instr.madv ∈ [Instr.nop, .madv, .pack] ∧
      Instr.madv ∈ [Instr.madv, .capt] := ⟨rfl, by decide, by decide⟩

theorem witness_SamplesAreOnlyAppended :
    (running [0]).err = .none ∧ exec .madv (running [0]) = .next (modStep (running [0])) := ⟨rfl, rfl⟩

theorem witness_SlopeIsUnreadWithoutAModulator :
    State.reset.mrdy = false ∧ exec .madv State.reset = .next { State.reset with err := .notInitialised } := ⟨rfl, rfl⟩

theorem witness_UnwrittenBufferIsInvisible :
    (holding [1]).bvalid = false ∧ exec .pack (holding [1]) = .next (cmdPack (holding [1])) ∧
      exec .pack { holding [1] with buf := [(3, 0xAA#8)] } = .next (cmdPack { holding [1] with buf := [(3, 0xAA#8)] }) :=
  ⟨rfl, rfl, rfl⟩

/-- After one MADV of the block `running [0]`: `FB = 1/4`, one Sample, decision +1. -/
theorem witness_EveryStepKeepsFeedbackAMultiple :
    FeedbackIsMultiple (facing [.command (ports 0x5#4)] (modStep (running [0]))) ∧
      step (facing [.command (ports 0x5#4)] (modStep (running [0]))) =
        exec .madv (modStep (running [0])) :=
  ⟨fun _ => by unfold currentSamples countDecisions; decide +kernel, rfl⟩

/-- P1's RUN, with `A = 1/2`: its four command values come from the list of the source. -/
theorem witness_CommandsKeepFeedbackBounded :
    (0 : Rat) ≤ 1 / 2 ∧ (running [0, 1 / 2, 1 / 4, 1 / 4]).env.amp = .q ∧
      SourceWithin (1 / 2) (.run 4#16 (.rat (1 / 4))) (running [0, 1 / 2, 1 / 4, 1 / 4]) ∧
      SlopePositive (running [0, 1 / 2, 1 / 4, 1 / 4]) ∧
      ((running [0, 1 / 2, 1 / 4, 1 / 4]).mrdy = true → FeedbackWithin (1 / 2) (running [0, 1 / 2, 1 / 4, 1 / 4])) ∧
      shows (exec (.run 4#16 (.rat (1 / 4))) (running [0, 1 / 2, 1 / 4, 1 / 4])) State.mrdy = some true := by
  refine ⟨by norm_num, rfl, fun j hj => ?_, fun _ => by decide +kernel, fun _ => by unfold FeedbackWithin; decide +kernel,
    by decide +kernel⟩
  have hj : j < 4 := hj
  interval_cases j <;> decide +kernel

/-- The same for MADV and CAPT, with one command value at `IDX = 0`, and for MINIT, which asks for none. -/
theorem witness_CommandsKeepFeedbackBounded_steps :
    SourceWithin 1 .madv (running [1]) ∧ SourceWithin 1 .capt (running [1]) ∧
      SourceWithin 1 (.minit (.rat (1 / 4))) (running [1]) ∧ SlopePositive (running [1]) ∧
      FeedbackWithin 1 (running [1]) ∧ shows (exec .madv (running [1])) State.mrdy = some true ∧
      shows (exec .capt (running [1])) State.mrdy = some true ∧
      shows (exec (.minit (.rat (1 / 4))) (running [1])) State.mrdy = some true := by
  have h : SourceWithin 1 .madv (running [1]) := fun j hj => by
    have hj : j = 0 := hj
    subst hj
    decide +kernel
  exact ⟨h, h, fun _ hj => hj.elim, fun _ => by decide +kernel, by unfold FeedbackWithin; decide +kernel, by decide +kernel,
    by decide +kernel, by decide +kernel⟩

end Sys2Proof.Tests
end

section
/-! PROOFS. The operations of the reference form `F64` of `AMP` (spec/00_scope.md R6, 40_modulator.md R108): the fields of a
packed pattern, and `amp_add` as rounding to the nearest value, ties to even. -/

namespace Sys2Proof.Machine

/-! ### The fields of a pattern -/

theorem f64Exp_eq (b : BitVec 64) : f64Exp b = b.toNat / 2 ^ 52 % 2 ^ 11 := by
  simp [f64Exp, BitVec.extractLsb_toNat, Nat.shiftRight_eq_div_pow]

theorem f64Frac_eq (b : BitVec 64) : f64Frac b = b.toNat % 2 ^ 52 := by
  simp [f64Frac, BitVec.extractLsb_toNat]

theorem f64Frac_lt (b : BitVec 64) : f64Frac b < 2 ^ 52 := by
  rw [f64Frac_eq]
  exact Nat.mod_lt _ (by decide)

theorem f64Pack_toNat (sign : Bool) {m : Nat} (hm : m < 2 ^ 63) :
    (f64Pack sign m).toNat = if sign then 2 ^ 63 + m else m := by
  cases sign <;> (simp [f64Pack]; omega)

theorem f64Sign_pack (sign : Bool) {m : Nat} (hm : m < 2 ^ 63) : f64Sign (f64Pack sign m) = sign := by
  rw [f64Sign, BitVec.msb_eq_decide, f64Pack_toNat sign hm]
  cases sign with
  | false => simpa using hm
  | true => simp

theorem f64Exp_pack (sign : Bool) {m : Nat} (hm : m < 2 ^ 63) : f64Exp (f64Pack sign m) = m / 2 ^ 52 := by
  rw [f64Exp_eq, f64Pack_toNat sign hm]
  cases sign <;> simp <;> omega

theorem f64Frac_pack (sign : Bool) {m : Nat} (hm : m < 2 ^ 63) : f64Frac (f64Pack sign m) = m % 2 ^ 52 := by
  rw [f64Frac_eq, f64Pack_toNat sign hm]
  cases sign with
  | false => rfl
  | true => simp; omega

/-- The significand `q` may lack its leading one only at the lowest exponent, and may have carried to `2 ^ 53`. -/
theorem f64Mag_pack (sign : Bool) {k q : Nat} (hm : k * 2 ^ 52 + q < 2 ^ 63) (hlow : k = 0 ∨ 2 ^ 52 ≤ q)
    (hhigh : q ≤ 2 ^ 53) : f64Mag (f64Pack sign (k * 2 ^ 52 + q)) = q * 2 ^ k := by
  rw [f64Mag, f64Exp_pack sign hm, f64Frac_pack sign hm]
  obtain hq | hq | rfl : q < 2 ^ 52 ∨ (2 ^ 52 ≤ q ∧ q < 2 ^ 53) ∨ q = 2 ^ 53 := by omega
  · obtain rfl : k = 0 := by omega
    rw [if_pos (by omega)]
    omega
  · have hexp : (k * 2 ^ 52 + q) / 2 ^ 52 = k + 1 := by omega
    have hsig : 2 ^ 52 + (k * 2 ^ 52 + q) % 2 ^ 52 = q := by omega
    rw [if_neg (by omega), hexp, hsig, Nat.add_sub_cancel]
  · have hexp : (k * 2 ^ 52 + 2 ^ 53) / 2 ^ 52 = k + 2 := by omega
    have hfrac : (k * 2 ^ 52 + 2 ^ 53) % 2 ^ 52 = 0 := by omega
    rw [if_neg (by omega), hexp, hfrac, Nat.add_succ_sub_one, pow_succ]
    omega

theorem f64Int_pack (sign : Bool) {m : Nat} (hm : m < 2 ^ 63) :
    f64Int (f64Pack sign m) = if sign then -(f64Mag (f64Pack sign m) : Int) else f64Mag (f64Pack sign m) := by
  rw [f64Int, f64Sign_pack sign hm]

theorem natAbs_f64Int (b : BitVec 64) : (f64Int b).natAbs = f64Mag b := by
  unfold f64Int
  split <;> simp

/-- A value below the binade of `2 ^ (k + 52)` aside, every binary64 value is a multiple of `2 ^ k`. -/
theorem f64Mag_lt_or_dvd (b : BitVec 64) (k : Nat) : f64Mag b < 2 ^ (k + 52) ∨ 2 ^ k ∣ f64Mag b := by
  have hfrac := f64Frac_lt b
  unfold f64Mag
  split
  · exact .inl (hfrac.trans_le (Nat.pow_le_pow_right (by decide) (by omega)))
  · obtain hexp | hexp := Nat.lt_or_ge (f64Exp b - 1) k
    · left
      calc (2 ^ 52 + f64Frac b) * 2 ^ (f64Exp b - 1)
          < 2 ^ 53 * 2 ^ (f64Exp b - 1) := Nat.mul_lt_mul_of_pos_right (by omega) (by positivity)
        _ = 2 ^ (f64Exp b - 1 + 53) := by rw [← pow_add, Nat.add_comm]
        _ ≤ 2 ^ (k + 52) := Nat.pow_le_pow_right (by decide) (by omega)
    · exact .inr (Dvd.dvd.mul_left (pow_dvd_pow 2 hexp) _)

/-! ### The sum of finite values -/

theorem f64IsNaN_of_finite {b : BitVec 64} (h : f64IsFinite b = true) : f64IsNaN b = false := by
  simp_all [f64IsFinite, f64IsNaN]

theorem f64IsInf_of_finite {b : BitVec 64} (h : f64IsFinite b = true) : f64IsInf b = false := by
  simp_all [f64IsFinite, f64IsInf]

theorem f64AddWith_of_finite (nan : BitVec 64) {a b : BitVec 64} (ha : f64IsFinite a = true) (hb : f64IsFinite b = true) :
    f64AddWith nan a b = f64AddFinite a b := by
  simp [f64AddWith, f64IsNaN_of_finite, f64IsInf_of_finite, ha, hb]

theorem f64AddFinite_of_sum_eq_zero {a b : BitVec 64} (h : f64Int a + f64Int b = 0) :
    f64AddFinite a b = f64Pack (f64Sign a && f64Sign b) 0 := if_pos h

theorem f64AddFinite_of_sum_ne_zero {a b : BitVec 64} (h : f64Int a + f64Int b ≠ 0) :
    f64AddFinite a b =
      f64Pack (decide (f64Int a + f64Int b < 0)) (f64RoundMag (f64Int a + f64Int b).natAbs) := if_neg h

/-! ### Rounding to nearest, ties to even -/

/-- No integer `y` beats `r` as a rounding of `x`: it is no nearer, and it is another one equally near only if `even` holds. -/
def NearestAgainst (x r : Int) (even : Prop) (y : Int) : Prop :=
  (r - x).natAbs ≤ (y - x).natAbs ∧ ((r - x).natAbs = (y - x).natAbs → y ≠ r → even)

theorem roundShift_eq_or (a k : Nat) : roundShift a k = a / 2 ^ k ∨ roundShift a k = a / 2 ^ k + 1 := by
  unfold roundShift
  split <;> simp

/-- R6 for the significand: among the multiples of `2 ^ k`. -/
theorem roundShift_nearest (a k n : Nat) :
    NearestAgainst a ↑(roundShift a k * 2 ^ k) (roundShift a k % 2 = 0) ↑(n * 2 ^ k) := by
  have hpos : 0 < 2 ^ k := by positivity
  have hrem : a % 2 ^ k < 2 ^ k := Nat.mod_lt _ hpos
  have hdiv : a / 2 ^ k * 2 ^ k + a % 2 ^ k = a := Nat.div_add_mod' a (2 ^ k)
  unfold NearestAgainst roundShift
  generalize a / 2 ^ k = q at *
  generalize a % 2 ^ k = r at *
  generalize 2 ^ k = d at *
  have hside : n * d + d ≤ q * d ∨ n = q ∨ n = q + 1 ∨ q * d + 2 * d ≤ n * d := by
    obtain h | h | h | h : n + 1 ≤ q ∨ n = q ∨ n = q + 1 ∨ q + 2 ≤ n := by omega
    · exact .inl (by simpa [Nat.add_mul] using Nat.mul_le_mul_right d h)
    · exact .inr (.inl h)
    · exact .inr (.inr (.inl h))
    · exact .inr (.inr (.inr (by simpa [Nat.add_mul] using Nat.mul_le_mul_right d h)))
  have hsucc : (q + 1) * d = q * d + d := Nat.succ_mul q d
  split
  · obtain h | rfl | rfl | h := hside <;> omega
  · obtain h | rfl | rfl | h := hside <;> omega

/-- The magnitude, in units of 2^-1074, that `f64RoundMag a` stands for where it does not overflow. -/
def roundedMag (a : Nat) : Nat := roundShift a (Nat.log2 a - 52) * 2 ^ (Nat.log2 a - 52)

theorem roundShift_log2_le (a : Nat) : roundShift a (Nat.log2 a - 52) ≤ 2 ^ 53 := by
  have hlt : a / 2 ^ (Nat.log2 a - 52) < 2 ^ 53 := by
    rw [Nat.div_lt_iff_lt_mul (by positivity), ← pow_add]
    exact Nat.lt_log2_self.trans_le (Nat.pow_le_pow_right (by decide) (by omega))
  obtain h | h := roundShift_eq_or a (Nat.log2 a - 52) <;> omega

theorem two_pow_le_of_log2 {a : Nat} (h : Nat.log2 a - 52 ≠ 0) : 2 ^ (Nat.log2 a - 52 + 52) ≤ a := by
  rw [Nat.sub_add_cancel (by omega)]
  exact Nat.log2_self_le (by rintro rfl; simp at h)

theorem le_roundShift_log2 {a : Nat} (h : Nat.log2 a - 52 ≠ 0) : 2 ^ 52 ≤ roundShift a (Nat.log2 a - 52) := by
  have hle : 2 ^ 52 ≤ a / 2 ^ (Nat.log2 a - 52) := by
    rw [Nat.le_div_iff_mul_le (by positivity), ← pow_add, Nat.add_comm]
    exact two_pow_le_of_log2 h
  obtain h | h := roundShift_eq_or a (Nat.log2 a - 52) <;> omega

/-- Among the binary64 values: one finer than the multiples of the rounding step lies below the binade of `a`, and the
foot of that binade is nearer. -/
theorem roundedMag_nearest (a : Nat) (y : BitVec 64) :
    NearestAgainst a (roundedMag a) (roundShift a (Nat.log2 a - 52) % 2 = 0) (f64Mag y) := by
  by_cases hdvd : 2 ^ (Nat.log2 a - 52) ∣ f64Mag y
  · obtain ⟨n, hn⟩ := hdvd
    rw [hn, Nat.mul_comm _ n]
    exact roundShift_nearest a _ n
  · have hlow : f64Mag y < 2 ^ (Nat.log2 a - 52 + 52) := (f64Mag_lt_or_dvd y _).resolve_right hdvd
    have hfoot : 2 ^ (Nat.log2 a - 52 + 52) ≤ a := two_pow_le_of_log2 fun h => hdvd (by simp [h])
    obtain ⟨hnear, -⟩ := roundShift_nearest a (Nat.log2 a - 52) (2 ^ 52)
    rw [← pow_add, Nat.add_comm 52] at hnear
    unfold NearestAgainst roundedMag
    generalize 2 ^ (Nat.log2 a - 52 + 52) = foot at *
    omega

/-- A rounding of the magnitude, given the sign of `x`, is a rounding of `x`. -/
theorem NearestAgainst.signed {x y : Int} {r : Nat} {even : Prop} (hx : x ≠ 0)
    (h : NearestAgainst x.natAbs r even y.natAbs) :
    NearestAgainst x (if x < 0 then -(r : Int) else r) even y := by
  obtain ⟨hnear, htie⟩ := h
  constructor
  · split <;> omega
  · intro heq hne
    apply htie
    · split at heq <;> omega
    · split at heq <;> split at hne <;> omega

theorem f64RoundMag_le (a : Nat) : f64RoundMag a ≤ 2047 * 2 ^ 52 := Nat.min_le_right _ _

theorem f64RoundMag_lt (a : Nat) : f64RoundMag a < 2 ^ 63 := (f64RoundMag_le a).trans_lt (by decide)

/-- A finite packed rounding did not meet the overflow bound of `f64RoundMag` (R113). -/
theorem f64RoundMag_eq_of_finite {sign : Bool} {a : Nat} (h : f64IsFinite (f64Pack sign (f64RoundMag a)) = true) :
    f64RoundMag a = (Nat.log2 a - 52) * 2 ^ 52 + roundShift a (Nat.log2 a - 52) := by
  have hexp : f64RoundMag a / 2 ^ 52 ≠ 2047 := by
    simpa [f64IsFinite, f64Exp_pack sign (f64RoundMag_lt a)] using h
  have hle := f64RoundMag_le a
  have hmin : f64RoundMag a = min _ _ := rfl
  omega

theorem f64Mag_pack_roundMag {sign : Bool} {a : Nat} (h : f64IsFinite (f64Pack sign (f64RoundMag a)) = true) :
    f64Mag (f64Pack sign (f64RoundMag a)) = roundedMag a := by
  have hlt := f64RoundMag_lt a
  rw [f64RoundMag_eq_of_finite h] at hlt ⊢
  exact f64Mag_pack sign hlt (or_iff_not_imp_left.mpr le_roundShift_log2) (roundShift_log2_le a)

theorem f64Frac_pack_roundMag_mod_two {sign : Bool} {a : Nat} (h : f64IsFinite (f64Pack sign (f64RoundMag a)) = true) :
    f64Frac (f64Pack sign (f64RoundMag a)) % 2 = roundShift a (Nat.log2 a - 52) % 2 := by
  rw [f64Frac_pack sign (f64RoundMag_lt a), f64RoundMag_eq_of_finite h]
  omega

theorem f64AddFinite_nearest {a b : BitVec 64} (y : BitVec 64) (h : f64IsFinite (f64AddFinite a b) = true) :
    NearestAgainst (f64Int a + f64Int b) (f64Int (f64AddFinite a b)) (f64Frac (f64AddFinite a b) % 2 = 0) (f64Int y) := by
  by_cases hsum : f64Int a + f64Int b = 0
  · have hfrac : f64Frac (f64AddFinite a b) = 0 := by
      rw [f64AddFinite_of_sum_eq_zero hsum, f64Frac_pack _ (by decide), Nat.zero_mod]
    have hmag : (f64Int (f64AddFinite a b)).natAbs = 0 := by
      simpa [natAbs_f64Int, f64AddFinite_of_sum_eq_zero hsum] using
        f64Mag_pack (k := 0) (q := 0) (f64Sign a && f64Sign b) (by decide) (.inl rfl) (by decide)
    exact ⟨by omega, fun _ _ => by rw [hfrac]⟩
  · rw [f64AddFinite_of_sum_ne_zero hsum] at h ⊢
    rw [f64Int_pack _ (f64RoundMag_lt _), f64Mag_pack_roundMag h, f64Frac_pack_roundMag_mod_two h]
    have hmag := roundedMag_nearest (f64Int a + f64Int b).natAbs y
    rw [← natAbs_f64Int y] at hmag
    simpa using hmag.signed hsum

end Sys2Proof.Machine

namespace Sys2Proof.Proofs

open Machine

/-- Settles O25: the finite sum is the exact sum's magnitude rounded among the multiples of the rounding step, under the
exact sum's sign. -/
theorem binarySumIsRoundedToNearestEven : Obligations.BinarySumIsRoundedToNearestEven := by
  intro a b y ha hb _ hsum
  have hadd : f64Add a b = f64AddFinite a b := f64AddWith_of_finite _ ha hb
  rw [hadd] at hsum ⊢
  exact f64AddFinite_nearest y hsum

/-- Settles O20, an operation at a time. -/
theorem rationalAmpIsExact : Obligations.RationalAmpIsExact := by
  intro a b
  exact ⟨AmpKind.zero_q, AmpKind.add_q _ _, AmpKind.sub_q _ _, AmpKind.neg_q _, AmpKind.ge0_q (.rat a),
    AmpKind.gt0_q (.rat a), AmpKind.mulDec_true _ _, AmpKind.mulDec_false _ _⟩

end Sys2Proof.Proofs
end

section
/-! PROOFS. What the commands do beyond their case lists: the packed frame of PACK, the length ROT leaves, what the store commands
keep, and RUN in closed form (spec/42_bit_rotator.md R138, 44_pipeline_run.md R173 to R175). -/

namespace Sys2Proof.Machine

/-! ### Amplitudes -/

/-- A value of another type reads as zero (log entry 3). -/
theorem gt0_eq_gt0_zero_of_not_has {k : AmpKind} {a : Amp} (h : k.has a = false) : k.gt0 a = k.gt0 k.zero :=
  match k, a, h with
  | .q, .f64 _, _ => rfl
  | .q, .code _, _ => rfl
  | .f64, .rat _, _ => rfl
  | .f64, .code _, _ => rfl
  | .custom, .rat _, _ => rfl
  | .custom, .f64 _, _ => rfl

theorem has_of_gt0 {k : AmpKind} {a : Amp} (h : k.gt0 a = true) : k.has a = true := by
  by_contra hn
  rw [gt0_eq_gt0_zero_of_not_has (Bool.not_eq_true _ ▸ hn), AmpKind.gt0_zero] at h
  cases h

theorem has_freeCommand (k : AmpKind) (run i : Nat) : k.has (freeCommand k run i) = true := by cases k <;> rfl

theorem has_command {e : Env} (h : ∀ c ∈ e.src, e.amp.has c = true) (i : Nat) : e.amp.has (command e i) = true := by
  unfold command
  split
  · exact h _ (List.mem_of_getElem? ‹_›)
  · exact has_freeCommand _ _ _

theorem quantize_q_iff (c f : Amp) : quantize .q c f = true ↔ f.toRat ≤ c.toRat := by
  rw [quantize, AmpKind.ge0_q, AmpKind.sub_q, Amp.toRat_rat, sub_nonneg]

/-- R108 over `Q`: the decision adds the step or takes it away. -/
theorem toRat_add_mulDec_q (f x : Amp) (d : Bit) :
    (AmpKind.q.add f (AmpKind.q.mulDec x d)).toRat = f.toRat + if d then x.toRat else -x.toRat := by
  cases d <;> rfl

/-! ### The rotator -/

theorem firstPair_bounds {b : List Bit} {i : Nat} (h : firstPair b = some i) : 1 ≤ i ∧ i < b.length := by
  have := List.mem_range'_1.mp (List.mem_of_find?_eq_some h)
  omega

/-- R138, with the empty sequence taken in. -/
theorem rotate_length {b r : List Bit} (h : rotate b = some r) : r.length = b.length - 1 := by
  unfold rotate at h
  split at h
  · cases h
    exact List.length_dropLast
  · split at h
    · rename_i i hi
      obtain ⟨h1, h2⟩ := firstPair_bounds hi
      cases h
      simp only [List.length_append, List.length_drop, List.length_take]
      omega
    · cases h

/-! ### The packed frame -/

/-- The thirty bytes written by PACK are read back, whatever `BUF` held. -/
theorem memReadRange_packed (m : Memory) {bytes : List Byte} (h : bytes.length = 30) :
    memReadRange (memWriteAll m 0 bytes) 0 30 = some bytes := by
  rw [← h]
  exact memReadRange_memWriteAll m 0 bytes

/-! ### What the store commands keep (R121, R122, R135, R150) -/

/-- `t` has the modulator, the Samples and the environment of `s`. -/
structure SameModulator (s t : State) : Prop where
  fb : t.fb = s.fb
  slope : t.slope = s.slope
  idx : t.idx = s.idx
  mrdy : t.mrdy = s.mrdy
  samples : t.samples = s.samples
  env : t.env = s.env

theorem SameModulator.refl (s : State) : SameModulator s s := ⟨rfl, rfl, rfl, rfl, rfl, rfl⟩

theorem raise_sameModulator (c : ErrCode) (s : State) : SameModulator s (raise c s) := ⟨rfl, rfl, rfl, rfl, rfl, rfl⟩

theorem storeSeq_sameModulator (q : List Bit) (s : State) : SameModulator s (storeSeq q s) :=
  ⟨rfl, rfl, rfl, rfl, rfl, rfl⟩

theorem appendBit_sameModulator (b : Bit) (s : State) : SameModulator s (appendBit b s) := ⟨rfl, rfl, rfl, rfl, rfl, rfl⟩

theorem storeBuf_sameModulator (bytes : List Byte) (s : State) : SameModulator s (storeBuf bytes s) :=
  ⟨rfl, rfl, rfl, rfl, rfl, rfl⟩

theorem cmdSclr_sameModulator (s : State) : SameModulator s (cmdSclr s) := by
  rcases cmdSclr_cases s with ⟨_, e⟩ | ⟨_, e⟩ <;> rw [e]
  · exact .refl s
  · exact storeSeq_sameModulator _ s

theorem cmdSpush_sameModulator (b : Bit) (s : State) : SameModulator s (cmdSpush b s) := by
  rcases cmdSpush_cases b s with ⟨_, e⟩ | ⟨_, _, e⟩ | ⟨_, _, e⟩ <;> rw [e]
  · exact .refl s
  · exact raise_sameModulator _ s
  · exact appendBit_sameModulator b s

theorem cmdRot_sameModulator (s : State) : SameModulator s (cmdRot s) := by
  rcases cmdRot_cases s with ⟨_, e⟩ | ⟨_, _, e⟩ | ⟨_, _, _, e⟩ | ⟨r, _, _, _, e⟩ <;> rw [e]
  · exact .refl s
  · exact raise_sameModulator _ s
  · exact raise_sameModulator _ s
  · exact storeSeq_sameModulator r s

theorem cmdPack_sameModulator (s : State) : SameModulator s (cmdPack s) := by
  rcases cmdPack_cases s with ⟨_, e⟩ | ⟨_, _, e⟩ | ⟨_, _, e⟩ | ⟨_, _, _, e⟩ <;> rw [e]
  · exact .refl s
  · exact raise_sameModulator _ s
  · exact raise_sameModulator _ s
  · exact storeBuf_sameModulator _ s

/-! ### RUN in closed form (R173 to R175) -/

/-- `s` after a fresh modulator of step `a` and `n` captures into the emptied store. -/
def captured (n : Nat) (a : Amp) (s : State) : State :=
  { s with
    slope := a, fb := fbAt s.env a n, idx := n, mrdy := true, seq := firstBits s.env a n
    samples := s.samples ++ firstSamples s.env a n }

@[simp] theorem firstBits_length (e : Env) (a : Amp) (n : Nat) : (firstBits e a n).length = n := by simp [firstBits]

@[simp] theorem firstSamples_length (e : Env) (a : Amp) (n : Nat) : (firstSamples e a n).length = n := by
  simp [firstSamples]

theorem captured_seq_length (n : Nat) (a : Amp) (s : State) : (captured n a s).seq.length = n := firstBits_length _ _ _

theorem captured_zero (a : Amp) (s : State) : storeSeq [] (newModulator a s) = captured 0 a s := by
  simp [captured, firstBits, firstSamples, fbAt, storeSeq, newModulator]

theorem captured_succ (n : Nat) (a : Amp) (s : State) :
    appendBit (captured n a s).decision (modStep (captured n a s)) = captured (n + 1) a s := by
  simp only [captured, firstBits, firstSamples, List.range_succ, List.map_append, ← List.append_assoc]
  rfl

/-- R128: the captures of RUN, none of which faults. -/
theorem captTimes_fresh {s : State} (h : s.err = .none) (a : Amp) {n : Nat} (hn : n ≤ 232) :
    captTimes n (storeSeq [] (newModulator a s)) = captured n a s := by
  induction n with
  | zero => exact captured_zero a s
  | succ n ih =>
    rw [captTimes_succ, ih (by omega), cmdCapt_running (s := captured n a s) h, if_neg (by simp [captured]),
      if_neg (by rw [captured_seq_length]; omega), captured_succ]

theorem cmdRot_of_rotate_none {s : State} (h : s.err = .none) (hl : 2 ≤ s.seq.length) (hr : rotate s.seq = none) :
    cmdRot s = raise .rotationError s := by
  rw [cmdRot_running h, if_neg (by omega), hr]

theorem cmdRot_of_rotate_some {s : State} {r : List Bit} (h : s.err = .none) (hl : 2 ≤ s.seq.length)
    (hr : rotate s.seq = some r) : cmdRot s = storeSeq r s := by
  rw [cmdRot_running h, if_neg (by omega), hr]

theorem cmdPack_of_length {s : State} (h : s.err = .none) (h1 : 1 ≤ s.seq.length) (h2 : s.seq.length ≤ 232) :
    cmdPack s = storeBuf (packBits s.seq) s := by
  rw [cmdPack_running h, if_neg (by omega), if_neg (by omega)]

theorem runOperandFault_mem {k : AmpKind} {n : BitVec 16} {a : Amp} {c : ErrCode} (h : runOperandFault k n a = some c) :
    c ∈ [ErrCode.lengthError, .bufferOverflow, .paramError] := by
  rcases runOperandFault_cases k n a with ⟨_, e⟩ | ⟨_, e⟩ | ⟨_, _, _, e⟩ | ⟨_, _, _, e⟩
  · cases h.symm.trans e
    decide
  · cases h.symm.trans e
    decide
  · cases h.symm.trans e
    decide
  · cases h.symm.trans e

theorem runOperandFault_eq_none {k : AmpKind} {n : BitVec 16} {a : Amp} (h : runOperandFault k n a = none) :
    2 ≤ n.toNat ∧ n.toNat ≤ 232 ∧ k.gt0 a = true := by
  rcases runOperandFault_cases k n a with ⟨_, e⟩ | ⟨_, e⟩ | ⟨_, _, _, e⟩ | ⟨h2, h232, hg, _⟩
  · cases e.symm.trans h
  · cases e.symm.trans h
  · cases e.symm.trans h
  · exact ⟨h2, h232, hg⟩

/-- Everything RUN can do: nothing, an operand fault, RotationError after the captures, or the packed frame. -/
theorem cmdRun_outcomes (n : BitVec 16) (a : Amp) (s : State) :
    (s.err ≠ .none ∧ cmdRun n a s = s) ∨
    (∃ c, c ∈ [ErrCode.lengthError, .bufferOverflow, .paramError] ∧ s.err = .none ∧ cmdRun n a s = raise c s) ∨
    (s.err = .none ∧ s.env.amp.gt0 a = true ∧ rotate (firstBits s.env a n.toNat) = none ∧
      cmdRun n a s = raise .rotationError (captured n.toNat a s)) ∨
    (∃ r, s.err = .none ∧ s.env.amp.gt0 a = true ∧ rotate (firstBits s.env a n.toNat) = some r ∧
      cmdRun n a s = storeBuf (packBits r) (storeSeq r (captured n.toNat a s))) := by
  rcases cmdRun_cases n a s with ⟨h, e⟩ | ⟨c, h, hf, e⟩ | ⟨h, hf, e⟩
  · exact .inl ⟨h, e⟩
  · exact .inr (.inl ⟨c, runOperandFault_mem hf, h, e⟩)
  · obtain ⟨h2, h232, hg⟩ := runOperandFault_eq_none hf
    rw [captTimes_fresh h a h232] at e
    have herr : (captured n.toNat a s).err = .none := h
    have hbits : 2 ≤ (captured n.toNat a s).seq.length := by rwa [captured_seq_length]
    cases hr : rotate (firstBits s.env a n.toNat) with
    | none =>
      rw [cmdRot_of_rotate_none herr hbits hr, cmdPack_halted (by simp)] at e
      exact .inr (.inr (.inl ⟨h, hg, rfl, e⟩))
    | some r =>
      have hlen : r.length = n.toNat - 1 := by rw [rotate_length hr, firstBits_length]
      have hpack : cmdPack (storeSeq r (captured n.toNat a s)) = _ :=
        cmdPack_of_length h (show 1 ≤ r.length by omega) (show r.length ≤ 232 by omega)
      rw [cmdRot_of_rotate_some herr hbits hr, hpack] at e
      exact .inr (.inr (.inr ⟨r, h, hg, rfl, e⟩))

end Sys2Proof.Machine
end

section
/-! PROOFS. The invariants of the reachable states (spec/10_state.md R21, R28, R31, R39, R50): what one step can do, an invariant's
step from its updates, and the two invariants. -/

namespace Sys2Proof.Machine

/-! ### One step -/

/-- Everything a step can do. -/
theorem step_cases {s t : State} (h : step s = .next t) :
    (s.inputs = [] ∧ t = s) ∨
    (∃ src rest, s.inputs = .reset src :: rest ∧ t = applyReset src (setInputs rest s)) ∨
    (∃ p rest i, s.inputs = .command p :: rest ∧ decode p = .ok i ∧ t = after i (setInputs rest s)) ∨
    (∃ p rest, s.inputs = .command p :: rest ∧ t = illegalCommand (setInputs rest s)) := by
  cases hin : s.inputs with
  | nil =>
    cases (step_idle hin).symm.trans h
    exact .inl ⟨rfl, rfl⟩
  | cons x rest =>
    cases x with
    | reset src =>
      cases (step_reset hin).symm.trans h
      exact .inr (.inl ⟨src, rest, rfl, rfl⟩)
    | command p =>
      cases hd : decode p with
      | ok i =>
        have hexec : step s = exec i (setInputs rest s) := by simp only [step, hin, hd]
        cases (hexec.trans (exec_eq_after i _)).symm.trans h
        exact .inr (.inr (.inl ⟨p, rest, i, rfl, hd, rfl⟩))
      | error e =>
        cases (step_illegal hin hd).symm.trans h
        exact .inr (.inr (.inr ⟨p, rest, rfl, rfl⟩))

theorem KeptByUpdates.illegalCommand {R : State → State → Prop} (K : KeptByUpdates R) (s : State) :
    R s (illegalCommand s) := by
  by_cases h : s.err = .none
  · rw [illegalCommand_of_running h]
    exact K.raise _ s h
  · rw [illegalCommand_of_halted h]
    exact K.refl s

/-- The induction over one step, once: what every update keeps, taking an input and a reset keep, every step keeps. -/
theorem KeptByUpdates.step {P : State → Prop} (K : KeptByUpdates fun s t => P s → P t)
    (hinput : ∀ x rest s, s.inputs = x :: rest → P s → P (setInputs rest s))
    (hreset : ∀ src rest s, s.inputs = .reset src :: rest → P s → P (applyReset src (setInputs rest s)))
    {s t : State} (hs : P s) (h : Machine.step s = .next t) : P t := by
  rcases step_cases h with ⟨_, rfl⟩ | ⟨src, rest, hin, rfl⟩ | ⟨p, rest, i, hin, _, rfl⟩ | ⟨p, rest, hin, rfl⟩
  · exact hs
  · exact hreset src rest s hin hs
  · exact K.after i _ (hinput _ rest s hin hs)
  · exact K.illegalCommand _ (hinput _ rest s hin hs)

/-! ### The invariant of R21, R28, R31, R50 and R6 -/

theorem ampTyped_newModulator {a : Amp} {s : State} (ha : s.env.amp.has a = true) (h : AmpTyped s) :
    AmpTyped (newModulator a s) := by
  obtain ⟨_, _, hsrc, hin, hsmp⟩ := h
  exact ⟨AmpKind.has_zero _, ha, hsrc, hin, hsmp⟩

theorem ampTyped_modStep {s : State} (h : AmpTyped s) : AmpTyped (modStep s) := by
  obtain ⟨hfb, hslope, hsrc, hin, hsmp⟩ := h
  refine ⟨AmpKind.has_add _ _ _, hslope, hsrc, hin, fun p hp => ?_⟩
  rcases List.mem_append.mp hp with hp | hp
  · exact hsmp p hp
  · obtain rfl := List.mem_singleton.mp hp
    exact ⟨has_command hsrc s.idx, hfb⟩

theorem ampTyped_setInputs {x : Input} {rest : List Input} {s : State} (hx : s.inputs = x :: rest) (h : AmpTyped s) :
    AmpTyped (setInputs rest s) := by
  obtain ⟨hfb, hslope, hsrc, hin, hsmp⟩ := h
  exact ⟨hfb, hslope, hsrc, fun y hy => hin y (hx ▸ List.mem_cons_of_mem x hy), hsmp⟩

theorem ampTyped_applyReset {src : List Amp} {s : State} (hsrc : ∀ c ∈ src, s.env.amp.has c = true) (h : AmpTyped s) :
    AmpTyped (applyReset src s) := by
  obtain ⟨_, _, _, hin, hsmp⟩ := h
  exact ⟨AmpKind.has_zero _, AmpKind.has_zero _, hsrc, hin, hsmp⟩

theorem bufHolds_memWriteAll (m : Memory) {bytes : List Byte} (h : bytes.length = 30) :
    BufHolds (memWriteAll m 0 bytes) bytes := ⟨h, memReadRange_packed m h⟩

theorem blockInv_storeSeq {q : List Bit} {s : State} (hq : q.length ≤ 232) (h : BlockInv s) : BlockInv (storeSeq q s) :=
  ⟨hq, h.bufCanonical, h.slopePositive, h.frameValid, h.ampTyped⟩

theorem blockInv_keptByUpdates : KeptByUpdates fun s t => BlockInv s → BlockInv t where
  refl _ := id
  trans _ _ _ hst htu := htu ∘ hst
  raise _ _ _ h := ⟨h.storeBounded, h.bufCanonical, h.slopePositive, h.frameValid, h.ampTyped⟩
  newModulator _ _ _ hg h :=
    ⟨h.storeBounded, h.bufCanonical, fun _ => hg, h.frameValid, ampTyped_newModulator (has_of_gt0 hg) h.ampTyped⟩
  modStep _ _ _ h := ⟨h.storeBounded, h.bufCanonical, h.slopePositive, h.frameValid, ampTyped_modStep h.ampTyped⟩
  clear _ _ h := blockInv_storeSeq (Nat.zero_le _) h
  rotated r s _ _ hr h := by
    have hlen : s.seq.length ≤ 232 := h.storeBounded
    exact blockInv_storeSeq (by rw [rotate_length hr]; omega) h
  append b s _ hl h := by
    have hlen : s.seq.length ≤ 232 := h.storeBounded
    have hroom : (s.seq ++ [b]).length ≤ 232 := by rw [List.length_append, List.length_singleton]; omega
    exact ⟨hroom, h.bufCanonical, h.slopePositive, h.frameValid, h.ampTyped⟩
  pack s _ h1 h2 h :=
    ⟨h.storeBounded, memWriteAll_wf h.bufCanonical (by rw [packBits_length, bufLen_eq]), h.slopePositive,
      fun _ => ⟨s.seq, h1, h2, bufHolds_memWriteAll s.buf (packBits_length _)⟩, h.ampTyped⟩

theorem blockInv_setInputs {x : Input} {rest : List Input} {s : State} (hx : s.inputs = x :: rest) (h : BlockInv s) :
    BlockInv (setInputs rest s) :=
  ⟨h.storeBounded, h.bufCanonical, h.slopePositive, h.frameValid, ampTyped_setInputs hx h.ampTyped⟩

theorem blockInv_applyReset {src : List Amp} {rest : List Input} {s : State} (hin : s.inputs = .reset src :: rest)
    (h : BlockInv s) : BlockInv (applyReset src (setInputs rest s)) := by
  have hsrc : ∀ c ∈ src, s.env.amp.has c = true := by
    obtain ⟨_, _, _, htyped, _⟩ := h.ampTyped
    exact htyped (.reset src) (hin ▸ List.mem_cons_self)
  exact ⟨Nat.zero_le _, nil_wf, nofun, nofun, ampTyped_applyReset hsrc (ampTyped_setInputs hin h.ampTyped)⟩

/-! ### The feedback invariant of R39 -/

theorem currentSamples_newModulator (a : Amp) (s : State) : currentSamples (newModulator a s) = [] := List.drop_length

theorem currentSamples_applyReset (src : List Amp) (s : State) : currentSamples (applyReset src s) = [] := List.drop_length

theorem currentSamples_modStep {s : State} (h : s.idx ≤ s.samples.length) :
    currentSamples (modStep s) = currentSamples s ++ [s.nextSample] := by
  have hdrop : s.samples.length + 1 - (s.idx + 1) = s.samples.length - s.idx := by omega
  simp only [currentSamples, modStep_samples, modStep_idx, List.length_append, List.length_singleton, hdrop]
  exact List.drop_append_of_le_length (by omega)

theorem countDecisions_append_singleton (d : Bit) (l : List Sample) (p : Sample) :
    countDecisions d (l ++ [p]) = countDecisions d l + if p.d = d then 1 else 0 := by
  simp [countDecisions, List.countP_append, List.countP_singleton]

theorem toRat_nextFb {s : State} (h : s.env.amp = .q) :
    s.nextFb.toRat = s.fb.toRat + if s.decision then s.slope.toRat else -s.slope.toRat := by
  rw [State.nextFb, h, toRat_add_mulDec_q]

theorem feedbackIsMultiple_modStep {s : State} (h : FeedbackIsMultiple s) : FeedbackIsMultiple (modStep s) := by
  intro (hq : s.env.amp = .q)
  obtain ⟨hidx, hfb⟩ := h hq
  have hd : s.nextSample.d = s.decision := rfl
  refine ⟨by simpa using hidx, ?_⟩
  rw [currentSamples_modStep hidx, countDecisions_append_singleton, countDecisions_append_singleton, hd, modStep_fb,
    modStep_slope, toRat_nextFb hq, hfb]
  cases s.decision <;> simp <;> ring

theorem feedbackIsMultiple_of_fresh {s : State} (hcur : currentSamples s = []) (hidx : s.idx = 0)
    (hfb : s.fb = s.env.amp.zero) : FeedbackIsMultiple s := by
  intro hq
  rw [hcur, hidx, hfb, hq]
  exact ⟨Nat.zero_le _, by simp [countDecisions]⟩

theorem feedbackIsMultiple_keptByUpdates : KeptByUpdates fun s t => FeedbackIsMultiple s → FeedbackIsMultiple t where
  refl _ := id
  trans _ _ _ hst htu := htu ∘ hst
  raise _ _ _ h := h
  newModulator a s _ _ _ := feedbackIsMultiple_of_fresh (currentSamples_newModulator a s) rfl rfl
  modStep _ _ _ := feedbackIsMultiple_modStep
  clear _ _ h := h
  rotated _ _ _ _ _ h := h
  append _ _ _ _ h := h
  pack _ _ _ _ h := h

end Sys2Proof.Machine

namespace Sys2Proof.Proofs

open Machine

/-- Settles O58, an update at a time. -/
theorem everyStepKeepsTheInvariant : Obligations.EveryStepKeepsTheInvariant := fun _ _ hs hstep =>
  blockInv_keptByUpdates.step (fun _ _ _ hin h => blockInv_setInputs hin h) (fun _ _ _ hin h => blockInv_applyReset hin h)
    hs hstep

/-- Settles O59: only the modulator step moves `FB`, by the decision it counts. -/
theorem everyStepKeepsFeedbackAMultiple : Obligations.EveryStepKeepsFeedbackAMultiple := fun _ _ hs hstep =>
  feedbackIsMultiple_keptByUpdates.step (fun _ _ _ _ h => h)
    (fun src _ _ _ _ => feedbackIsMultiple_of_fresh (currentSamples_applyReset src _) rfl rfl) hs hstep

/-- Settles O57: the reset state has an empty store, no written byte, no modulator and no Sample. -/
theorem resetMeetsTheInvariants : Obligations.ResetMeetsTheInvariants :=
  ⟨⟨Nat.zero_le _, nil_wf, nofun, nofun, rfl, rfl, nofun, nofun, nofun⟩, feedbackIsMultiple_of_fresh rfl rfl rfl⟩

end Sys2Proof.Proofs
end

section
/-! PROOFS. What a command does to the feedback bound and to the Samples (spec/10_state.md R36, R40; 40_modulator.md R81). -/

namespace Sys2Proof.Machine

/-! ### The feedback bound of R40 over `Q` -/

/-- `f` lies in `[-A - x, A + x]`. -/
def WithinStep (A : Rat) (x f : Amp) : Prop := -A - x.toRat ≤ f.toRat ∧ f.toRat ≤ A + x.toRat

theorem feedbackWithin_iff (A : Rat) (s : State) : FeedbackWithin A s ↔ WithinStep A s.slope s.fb := Iff.rfl

theorem withinStep_zero {A : Rat} {x : Amp} (hA : 0 ≤ A) (hx : 0 < x.toRat) : WithinStep A x AmpKind.q.zero := by
  simp only [WithinStep, AmpKind.zero_q, Amp.toRat_rat]
  constructor <;> linarith

/-- R40's induction step: the quantizer steps towards the command value, so past it by at most one step. -/
theorem withinStep_add {A : Rat} {c f x : Amp} (hx : 0 < x.toRat) (hc : -A ≤ c.toRat ∧ c.toRat ≤ A)
    (hf : WithinStep A x f) : WithinStep A x (AmpKind.q.add f (AmpKind.q.mulDec x (quantize .q c f))) := by
  obtain ⟨hlow, hhigh⟩ := hf
  rw [WithinStep, toRat_add_mulDec_q]
  cases hd : quantize .q c f with
  | true =>
    have hle := (quantize_q_iff c f).mp hd
    constructor <;> simp only [if_true] <;> linarith
  | false =>
    have hlt : c.toRat < f.toRat := not_le.mp fun hle => by simp [(quantize_q_iff c f).mpr hle] at hd
    constructor <;> simp only [Bool.false_eq_true, if_false] <;> linarith

theorem withinStep_fbAt {A : Rat} {e : Env} {a : Amp} (hA : 0 ≤ A) (hq : e.amp = .q) (ha : 0 < a.toRat) {n : Nat}
    (hsrc : ∀ j, j < n → -A ≤ (command e j).toRat ∧ (command e j).toRat ≤ A) : WithinStep A a (fbAt e a n) := by
  induction n with
  | zero =>
    rw [fbAt, hq]
    exact withinStep_zero hA ha
  | succ n ih =>
    rw [fbAt, hq]
    exact withinStep_add ha (hsrc n n.lt_succ_self) (ih fun j hj => hsrc j (hj.trans n.lt_succ_self))

theorem feedbackWithin_modStep {A : Rat} {s : State} (hq : s.env.amp = .q) (hslope : SlopePositive s)
    (hm : s.mrdy = true) (hc : -A ≤ (command s.env s.idx).toRat ∧ (command s.env s.idx).toRat ≤ A)
    (h : FeedbackWithin A s) : FeedbackWithin A (modStep s) := by
  have hx : 0 < s.slope.toRat := (AmpKind.gt0_q _).mp (hq ▸ hslope hm)
  have hfb : (modStep s).fb = AmpKind.q.add s.fb (AmpKind.q.mulDec s.slope (quantize .q (command s.env s.idx) s.fb)) := by
    rw [modStep_fb, State.nextFb, State.decision, State.commandValue, hq]
  rw [feedbackWithin_iff, hfb]
  exact withinStep_add hx hc h

/-- R40's conclusion where a modulator exists. -/
def BoundedIfReady (A : Rat) (s : State) : Prop := s.mrdy = true → FeedbackWithin A s

theorem SameModulator.boundedIfReady {A : Rat} {s t : State} (hst : SameModulator s t) (h : BoundedIfReady A s) :
    BoundedIfReady A t := by
  obtain ⟨hfb, hslope, _, hmrdy, _, _⟩ := hst
  rw [BoundedIfReady, feedbackWithin_iff, hfb, hslope, hmrdy]
  exact h

theorem boundedIfReady_cmdMinit {A : Rat} {a : Amp} {s : State} (hA : 0 ≤ A) (hq : s.env.amp = .q)
    (h : BoundedIfReady A s) : BoundedIfReady A (cmdMinit a s) := by
  rcases cmdMinit_cases a s with ⟨_, e⟩ | ⟨_, _, e⟩ | ⟨_, hg, e⟩ <;> rw [e]
  · exact h
  · exact h
  · rw [hq, AmpKind.gt0_q] at hg
    intro _
    rw [feedbackWithin_iff, newModulator_fb, hq]
    exact withinStep_zero hA hg

theorem boundedIfReady_cmdMadv {A : Rat} {s : State} (hq : s.env.amp = .q) (hslope : SlopePositive s)
    (hsrc : SourceWithin A .madv s) (h : BoundedIfReady A s) : BoundedIfReady A (cmdMadv s) := by
  rcases cmdMadv_cases s with ⟨_, e⟩ | ⟨_, _, e⟩ | ⟨_, hm, e⟩ <;> rw [e]
  · exact h
  · exact h
  · exact fun _ => feedbackWithin_modStep hq hslope hm (hsrc s.idx rfl) (h hm)

theorem boundedIfReady_cmdCapt {A : Rat} {s : State} (hq : s.env.amp = .q) (hslope : SlopePositive s)
    (hsrc : SourceWithin A .capt s) (h : BoundedIfReady A s) : BoundedIfReady A (cmdCapt s) := by
  rcases cmdCapt_cases s with ⟨_, e⟩ | ⟨_, _, e⟩ | ⟨_, _, _, e⟩ | ⟨_, hm, _, e⟩ <;> rw [e]
  · exact h
  · exact h
  · exact h
  · exact fun _ => feedbackWithin_modStep hq hslope hm (hsrc s.idx rfl) (h hm)

theorem boundedIfReady_cmdRun {A : Rat} {n : BitVec 16} {a : Amp} {s : State} (hA : 0 ≤ A) (hq : s.env.amp = .q)
    (hsrc : SourceWithin A (.run n a) s) (h : BoundedIfReady A s) : BoundedIfReady A (cmdRun n a s) := by
  have hcap : s.env.amp.gt0 a = true → BoundedIfReady A (captured n.toNat a s) := fun hg _ => by
    rw [hq, AmpKind.gt0_q] at hg
    exact withinStep_fbAt hA hq hg hsrc
  rcases cmdRun_outcomes n a s with ⟨_, e⟩ | ⟨c, _, _, e⟩ | ⟨_, hg, _, e⟩ | ⟨r, _, hg, _, e⟩ <;> rw [e]
  · exact h
  · exact h
  · exact hcap hg
  · exact hcap hg

/-! ### The Samples -/

theorem inputs_keptByUpdates : KeptByUpdates fun s t => t.inputs = s.inputs where
  refl _ := rfl
  trans _ _ _ hst htu := htu.trans hst
  raise _ _ _ := rfl
  newModulator _ _ _ _ := rfl
  modStep _ _ _ := rfl
  clear _ _ := rfl
  rotated _ _ _ _ _ := rfl
  append _ _ _ _ := rfl
  pack _ _ _ _ := rfl

/-- `t` has the Samples of `s` and `n` more. -/
def Emits (n : Nat) (s t : State) : Prop := ∃ l, t.samples = s.samples ++ l ∧ l.length = n

theorem emits_zero {s t : State} (h : t.samples = s.samples) : Emits 0 s t := ⟨[], by rw [h, List.append_nil], rfl⟩

theorem cmdMinit_samples (a : Amp) (s : State) : (cmdMinit a s).samples = s.samples := by
  rcases cmdMinit_cases a s with ⟨_, e⟩ | ⟨_, _, e⟩ | ⟨_, _, e⟩ <;> rw [e]
  · rw [raise_samples]
  · rw [newModulator_samples]

theorem cmdMadv_emits {s : State} (h : s.err = .none) : Emits (if (cmdMadv s).err = .none then 1 else 0) s (cmdMadv s) := by
  rcases cmdMadv_cases s with ⟨h', _⟩ | ⟨_, _, e⟩ | ⟨_, _, e⟩
  · exact absurd h h'
  · rw [e]
    exact emits_zero rfl
  · rw [e, modStep_err, if_pos h]
    exact ⟨[s.nextSample], rfl, rfl⟩

theorem cmdCapt_emits {s : State} (h : s.err = .none) : Emits (if (cmdCapt s).err = .none then 1 else 0) s (cmdCapt s) := by
  rcases cmdCapt_cases s with ⟨h', _⟩ | ⟨_, _, e⟩ | ⟨_, _, _, e⟩ | ⟨_, _, _, e⟩
  · exact absurd h h'
  · rw [e]
    exact emits_zero rfl
  · rw [e]
    exact emits_zero rfl
  · rw [e, appendBit_err, modStep_err, if_pos h]
    exact ⟨[s.nextSample], rfl, rfl⟩

theorem cmdRun_emits {n : BitVec 16} {a : Amp} {s : State} (h : s.err = .none) :
    Emits (if (cmdRun n a s).err = .none ∨ (cmdRun n a s).err = .rotationError then n.toNat else 0) s (cmdRun n a s) := by
  rcases cmdRun_outcomes n a s with ⟨h', _⟩ | ⟨c, hc, _, e⟩ | ⟨_, _, _, e⟩ | ⟨r, _, _, _, e⟩
  · exact absurd h h'
  · have hno : ¬ (c = .none ∨ c = .rotationError) := by rintro (rfl | rfl) <;> revert hc <;> decide
    rw [e, raise_err, if_neg hno]
    exact emits_zero rfl
  · rw [e, raise_err, if_pos (.inr rfl)]
    exact ⟨_, rfl, firstSamples_length _ a _⟩
  · rw [e, if_pos (.inl h)]
    exact ⟨_, rfl, firstSamples_length _ a _⟩

end Sys2Proof.Machine

namespace Sys2Proof.Proofs

open Machine

/-- Settles O60: the store commands keep the modulator, MINIT starts one at zero, and every modulator step, RUN's among them,
keeps the bound. -/
theorem commandsKeepFeedbackBounded : Obligations.CommandsKeepFeedbackBounded := by
  intro A i s t hA hq hsrc hslope (hb : BoundedIfReady A s) hexec
  rw [exec_eq_after] at hexec
  cases hexec
  show BoundedIfReady A (after i s)
  cases i with
  | nop => exact hb
  | run n a => exact boundedIfReady_cmdRun hA hq hsrc hb
  | minit a => exact boundedIfReady_cmdMinit hA hq hb
  | madv => exact boundedIfReady_cmdMadv hq hslope hsrc hb
  | capt => exact boundedIfReady_cmdCapt hq hslope hsrc hb
  | sclr => exact (cmdSclr_sameModulator s).boundedIfReady hb
  | spush b => exact (cmdSpush_sameModulator b s).boundedIfReady hb
  | rot => exact (cmdRot_sameModulator s).boundedIfReady hb
  | pack => exact (cmdPack_sameModulator s).boundedIfReady hb

/-- Settles O54, a command at a time. -/
theorem samplesAreOnlyAppended : Obligations.SamplesAreOnlyAppended := by
  intro i s t herr hexec
  rw [exec_eq_after] at hexec
  cases hexec
  refine ⟨inputs_keptByUpdates.after i s, ?_⟩
  cases i with
  | nop => exact emits_zero rfl
  | run n a => exact cmdRun_emits herr
  | minit a => exact emits_zero (cmdMinit_samples a s)
  | madv => exact cmdMadv_emits herr
  | capt => exact cmdCapt_emits herr
  | sclr => exact emits_zero (cmdSclr_sameModulator s).samples
  | spush b => exact emits_zero (cmdSpush_sameModulator b s).samples
  | rot => exact emits_zero (cmdRot_sameModulator s).samples
  | pack => exact emits_zero (cmdPack_sameModulator s).samples

end Sys2Proof.Proofs
end

section
/-! PROOFS. What no command can tell apart (spec/10_state.md R21, R33, R41): two states that agree on what the commands test stay
related under every command; the field `SLOPE` without a modulator and the bytes of `BUF` before the first PACK. -/

namespace Sys2Proof.Machine

theorem after_halted {s : State} (h : s.err ≠ .none) (i : Instr) : after i s = s := by
  cases i with
  | nop => rfl
  | run n a => exact cmdRun_halted h
  | minit a => exact cmdMinit_halted h
  | madv => exact cmdMadv_halted h
  | capt => exact cmdCapt_halted h
  | sclr => exact cmdSclr_halted h
  | spush b => exact cmdSpush_halted h
  | rot => exact cmdRot_halted h
  | pack => exact cmdPack_halted h

theorem cmdRun_of_fault {n : BitVec 16} {a : Amp} {c : ErrCode} {s : State} (h : s.err = .none)
    (hf : runOperandFault s.env.amp n a = some c) : cmdRun n a s = raise c s := by
  rw [cmdRun, unlessHalted_of_running h, hf]

/-- A relation between states that agree on all a command tests, kept when both sides take the same update. -/
structure PairKeptByUpdates (S : State → State → Prop) : Prop where
  err : ∀ {s u}, S s u → u.err = s.err
  mrdy : ∀ {s u}, S s u → u.mrdy = s.mrdy
  seq : ∀ {s u}, S s u → u.seq = s.seq
  amp : ∀ {s u}, S s u → u.env.amp = s.env.amp
  decision : ∀ {s u}, S s u → u.decision = s.decision
  raise : ∀ {s u} c, S s u → S (raise c s) (raise c u)
  newModulator : ∀ {s u} a, S s u → S (newModulator a s) (newModulator a u)
  modStep : ∀ {s u}, s.mrdy = true → S s u → S (modStep s) (modStep u)
  storeSeq : ∀ {s u} q, S s u → S (storeSeq q s) (storeSeq q u)
  appendBit : ∀ {s u} b, S s u → S (appendBit b s) (appendBit b u)
  storeBuf : ∀ {s u bytes}, bytes.length = 30 → S s u → S (storeBuf bytes s) (storeBuf bytes u)

section
variable {S : State → State → Prop} {s u : State}

theorem PairKeptByUpdates.capt (K : PairKeptByUpdates S) (h : S s u) : S (cmdCapt s) (cmdCapt u) := by
  by_cases hs : s.err = .none
  · rw [cmdCapt_running hs, cmdCapt_running ((K.err h).trans hs), K.mrdy h, K.seq h, K.decision h]
    split
    · exact K.raise _ h
    · split
      · exact K.raise _ h
      · rename_i hm _
        exact K.appendBit _ (K.modStep (Bool.not_eq_false _ ▸ hm) h)
  · rw [cmdCapt_halted hs, cmdCapt_halted (K.err h ▸ hs)]
    exact h

theorem PairKeptByUpdates.rot (K : PairKeptByUpdates S) (h : S s u) : S (cmdRot s) (cmdRot u) := by
  by_cases hs : s.err = .none
  · rw [cmdRot_running hs, cmdRot_running ((K.err h).trans hs), K.seq h]
    split
    · exact K.raise _ h
    · split
      · exact K.raise _ h
      · exact K.storeSeq _ h
  · rw [cmdRot_halted hs, cmdRot_halted (K.err h ▸ hs)]
    exact h

theorem PairKeptByUpdates.packed (K : PairKeptByUpdates S) (h : S s u) : S (cmdPack s) (cmdPack u) := by
  by_cases hs : s.err = .none
  · rw [cmdPack_running hs, cmdPack_running ((K.err h).trans hs), K.seq h]
    split
    · exact K.raise _ h
    · split
      · exact K.raise _ h
      · exact K.storeBuf (packBits_length _) h
  · rw [cmdPack_halted hs, cmdPack_halted (K.err h ▸ hs)]
    exact h

theorem PairKeptByUpdates.captTimes (K : PairKeptByUpdates S) (n : Nat) (h : S s u) :
    S (captTimes n s) (captTimes n u) := by
  induction n generalizing s u with
  | zero => exact h
  | succ n ih => exact ih (K.capt h)

/-- The induction over a command's updates for two states: a relation kept by every update is kept by every command. -/
theorem PairKeptByUpdates.after (K : PairKeptByUpdates S) (i : Instr) (h : S s u) : S (after i s) (after i u) := by
  by_cases hs : s.err = .none
  · have hu : u.err = .none := (K.err h).trans hs
    cases i with
    | nop => exact h
    | capt => exact K.capt h
    | rot => exact K.rot h
    | pack => exact K.packed h
    | sclr =>
      show S (cmdSclr s) (cmdSclr u)
      rw [cmdSclr_running hs, cmdSclr_running hu]
      exact K.storeSeq _ h
    | minit a =>
      show S (cmdMinit a s) (cmdMinit a u)
      rw [cmdMinit_running hs, cmdMinit_running hu, K.amp h]
      split
      · exact K.newModulator a h
      · exact K.raise _ h
    | madv =>
      show S (cmdMadv s) (cmdMadv u)
      rw [cmdMadv_running hs, cmdMadv_running hu, K.mrdy h]
      split
      · exact K.modStep ‹_› h
      · exact K.raise _ h
    | spush b =>
      show S (cmdSpush b s) (cmdSpush b u)
      rw [cmdSpush_running hs, cmdSpush_running hu, K.seq h]
      split
      · exact K.raise _ h
      · exact K.appendBit b h
    | run n a =>
      show S (cmdRun n a s) (cmdRun n a u)
      cases hf : runOperandFault s.env.amp n a with
      | some c =>
        rw [cmdRun_of_fault hs hf, cmdRun_of_fault hu (K.amp h ▸ hf)]
        exact K.raise c h
      | none =>
        rw [cmdRun_checked hs hf, cmdRun_checked hu (K.amp h ▸ hf)]
        exact K.packed (K.rot (K.captTimes _ (K.storeSeq _ (K.newModulator a h))))
  · rw [after_halted hs, after_halted (K.err h ▸ hs)]
    exact h

end

/-! ### `SLOPE` without a modulator -/

/-- `s` with `x` in the field `SLOPE` where no modulator exists. -/
def withUnreadSlope (x : Amp) (s : State) : State := { s with slope := if s.mrdy then s.slope else x }

theorem withUnreadSlope_of_mrdy {s : State} (x : Amp) (h : s.mrdy = true) : withUnreadSlope x s = s := by
  rw [withUnreadSlope, if_pos h]

theorem withUnreadSlope_of_not_mrdy {s : State} (x : Amp) (h : s.mrdy = false) :
    withUnreadSlope x s = { s with slope := x } := by
  rw [withUnreadSlope, h, if_neg Bool.false_ne_true]

theorem withUnreadSlope_eq_ite (x : Amp) (s : State) :
    withUnreadSlope x s = if s.mrdy then s else { s with slope := x } := by
  split
  · exact withUnreadSlope_of_mrdy x ‹_›
  · exact withUnreadSlope_of_not_mrdy x (Bool.not_eq_true _ ▸ ‹_›)

/-- A new modulator overwrites the field (R104), and only a modulator step reads it, which needs one (R106). -/
theorem withUnreadSlope_keptByUpdates (x : Amp) : PairKeptByUpdates fun s u => u = withUnreadSlope x s where
  err h := h ▸ rfl
  mrdy h := h ▸ rfl
  seq h := h ▸ rfl
  amp h := h ▸ rfl
  decision h := h ▸ rfl
  raise _ h := h ▸ rfl
  newModulator _ h := h ▸ rfl
  modStep {s _} hm h := by
    have hm' : (modStep s).mrdy = true := hm
    rw [h, withUnreadSlope_of_mrdy x hm, withUnreadSlope_of_mrdy x hm']
  storeSeq _ h := h ▸ rfl
  appendBit _ h := h ▸ rfl
  storeBuf _ h := h ▸ rfl

/-! ### The bytes of `BUF` before the first PACK -/

/-- `u` is `s` but for `BUF`, and where a frame has been packed both hold the same thirty bytes. -/
structure SameButUnwrittenBuf (s u : State) : Prop where
  fields : u = { s with buf := u.buf }
  bytes : s.bvalid = true → memReadRange u.buf 0 30 = memReadRange s.buf 0 30

/-- PACK writes all thirty bytes (R150), and no command reads one. -/
theorem sameButUnwrittenBuf_keptByUpdates : PairKeptByUpdates SameButUnwrittenBuf where
  err h := congrArg (·.err) h.fields
  mrdy h := congrArg (·.mrdy) h.fields
  seq h := congrArg (·.seq) h.fields
  amp h := congrArg (·.env.amp) h.fields
  decision h := congrArg (·.decision) h.fields
  raise c h := ⟨congrArg (raise c) h.fields, h.bytes⟩
  newModulator a h := ⟨congrArg (newModulator a) h.fields, h.bytes⟩
  modStep _ h := ⟨congrArg modStep h.fields, h.bytes⟩
  storeSeq q h := ⟨congrArg (storeSeq q) h.fields, h.bytes⟩
  appendBit b h := ⟨congrArg (appendBit b) h.fields, h.bytes⟩
  storeBuf {_ _ bytes} hlen h :=
    ⟨congrArg (storeBuf bytes) h.fields, fun _ => (memReadRange_packed _ hlen).trans (memReadRange_packed _ hlen).symm⟩

theorem SameButUnwrittenBuf.observe_eq {s u : State} (h : SameButUnwrittenBuf s u) : s.observe = u.observe := by
  have hbuf : (if s.bvalid then memReadRange u.buf 0 30 else none) = s.observe.buf :=
    ite_congr rfl h.bytes fun _ => rfl
  calc s.observe = { s.observe with buf := if s.bvalid then memReadRange u.buf 0 30 else none } := by rw [hbuf]
    _ = State.observe { s with buf := u.buf } := rfl
    _ = u.observe := by rw [← h.fields]

theorem SameButUnwrittenBuf.frame_eq {s u : State} (h : SameButUnwrittenBuf s u) : s.frame = u.frame := by
  have hvalid : s.mayTake = true → s.bvalid = true := fun ht => ((Bool.and_eq_true _ _).mp ht).1
  calc s.frame = State.frame { s with buf := u.buf } := ite_congr rfl (fun ht => (h.bytes (hvalid ht)).symm) fun _ => rfl
    _ = u.frame := by rw [← h.fields]

/-! ### The register `STATUS` -/

/-- R25 on the three fields, whatever they hold. -/
theorem statusBits : ∀ (bvalid mrdy : Bool) (code : BitVec 3),
    let status : Byte := 0#2 ++ BitVec.ofBool bvalid ++ BitVec.ofBool mrdy ++ 0#1 ++ code
    status.extractLsb' 0 3 = code ∧ status.getLsbD 3 = false ∧ status.getLsbD 4 = mrdy ∧ status.getLsbD 5 = bvalid ∧
      status.getLsbD 6 = false ∧ status.getLsbD 7 = false := by
  decide

end Sys2Proof.Machine

namespace Sys2Proof.Proofs

open Machine

/-- Settles O55: replacing the unread field commutes with every command. -/
theorem slopeIsUnreadWithoutAModulator : Obligations.SlopeIsUnreadWithoutAModulator := by
  intro i s t x hm hexec
  rw [exec_eq_after] at hexec
  cases hexec
  rw [exec_eq_after, ← withUnreadSlope_of_not_mrdy x hm, ← withUnreadSlope_eq_ite]
  exact congrArg _ ((withUnreadSlope_keptByUpdates x).after i rfl)

/-- Settles O56: two states that differ in unwritten bytes alone still do after any command. -/
theorem unwrittenBufferIsInvisible : Obligations.UnwrittenBufferIsInvisible := by
  intro i s t u m hv ht hu
  rw [exec_eq_after] at ht hu
  cases ht
  cases hu
  have hstart : SameButUnwrittenBuf s { s with buf := m } := ⟨rfl, fun h => absurd (hv.symm.trans h) Bool.false_ne_true⟩
  have hend := sameButUnwrittenBuf_keptByUpdates.after i hstart
  exact ⟨hend.observe_eq, hend.frame_eq⟩

/-- Settles O9, a register at a time. -/
theorem resetStateHoldsTheResetValues : Obligations.ResetStateHoldsTheResetValues :=
  ⟨rfl, rfl, rfl, rfl, rfl, rfl, rfl, rfl, fun _ ha => if_pos ha⟩

/-- Settles O15: the layout does not depend on what the fields hold. -/
theorem statusRegisterLayout : Obligations.StatusRegisterLayout := fun s => statusBits s.bvalid s.mrdy s.err.code

end Sys2Proof.Proofs
end

section
/-! PROOFS. `BUF` as it is read (spec/20_memory.md R50 to R56): a read from outside, the frame the transport takes, the address map
PACK leaves, and the payload as a number. -/

namespace Sys2Proof.Machine

/-! ### One step on a command, and a completed PACK -/

theorem step_command {s : State} {p : Ports} {rest : List Input} {i : Instr}
    (h : s.inputs = .command p :: rest) (hd : decode p = .ok i) : step s = exec i (setInputs rest s) := by
  simp only [step, h, hd]

theorem exec_pack_of_length {s : State} (h : s.err = .none) (h1 : 1 ≤ s.seq.length) (h2 : s.seq.length ≤ 232) :
    exec .pack s = .next (storeBuf (packBits s.seq) s) :=
  (exec_eq_after .pack s).trans (congrArg _ (cmdPack_of_length h h1 h2))

/-! ### Reading `BUF` -/

theorem readBuf_outside {s : State} {a : Nat} (h : 30 ≤ a) : s.readBuf a = .error (.noSuchAddress a) :=
  if_neg h.not_gt

theorem readBuf_of_memRead_some {s : State} {a : Nat} {v : Byte} (ha : a < 30) (h : memRead s.buf a = some v) :
    s.readBuf a = .ok v := by
  rw [State.readBuf, bufLen_eq, if_pos ha, h]

theorem readBuf_of_memRead_none {s : State} {a : Nat} (ha : a < 30) (h : memRead s.buf a = none) :
    s.readBuf a = .error (.notYetWritten a) := by
  rw [State.readBuf, bufLen_eq, if_pos ha, h]

theorem memReadRange_succ_eq_cons_iff {m : Memory} {a n : Nat} {v : Byte} {vs : List Byte} :
    memReadRange m a (n + 1) = some (v :: vs) ↔ memRead m a = some v ∧ memReadRange m (a + 1) n = some vs := by
  rw [memReadRange]
  cases memRead m a <;> cases memReadRange m (a + 1) n <;> simp

/-- Reading a range is reading its addresses in ascending order. -/
theorem memReadRange_eq_some_iff {m : Memory} {a n : Nat} {vs : List Byte} :
    memReadRange m a n = some vs ↔ vs.length = n ∧ ∀ i, i < n → memRead m (a + i) = vs[i]? := by
  induction n generalizing a vs with
  | zero => simp [memReadRange, eq_comm (a := [])]
  | succ n ih =>
    cases vs with
    | nil => exact iff_of_false (fun h => by cases memReadRange_length h) (fun h => by cases h.1)
    | cons v vs =>
      rw [memReadRange_succ_eq_cons_iff, ih, Nat.forall_lt_succ_left]
      simp [Nat.add_assoc, Nat.add_comm 1, and_left_comm]

/-- Bytes read as a range, read one at a time. -/
theorem readBuf_of_memReadRange {s : State} {bytes : List Byte} (h : memReadRange s.buf 0 30 = some bytes) {a : Nat}
    (ha : a < 30) : s.readBuf a = .ok (bytes.getD a 0#8) := by
  obtain ⟨hlen, hread⟩ := memReadRange_eq_some_iff.mp h
  have hbyte := hread a ha
  rw [Nat.zero_add] at hbyte
  rw [List.getD_eq_getElem _ _ (by omega)]
  exact readBuf_of_memRead_some ha (hbyte.trans (List.getElem?_eq_getElem (by omega)))

theorem readBuf_storeBuf {bytes : List Byte} (hlen : bytes.length = 30) (s : State) {a : Nat} (ha : a < 30) :
    (storeBuf bytes s).readBuf a = .ok (bytes.getD a 0#8) :=
  readBuf_of_memReadRange (memReadRange_packed s.buf hlen) ha

/-! ### The frame the transport takes (R181) -/

theorem mayTake_iff (s : State) : s.mayTake = true ↔ Deliverable s := by
  simp [State.mayTake, Deliverable]

theorem frame_of_deliverable {s : State} (h : Deliverable s) : s.frame = memReadRange s.buf 0 30 :=
  if_pos ((mayTake_iff s).mpr h)

theorem frame_of_not_deliverable {s : State} (h : ¬ Deliverable s) : s.frame = none :=
  if_neg (mt (mayTake_iff s).mp h)

/-! ### The packed bytes, bit by bit (R53, R151) -/

theorem getLsbD_bitAt (b : Bit) {p q : Nat} (hp : p < 8) : (bitAt b q).getLsbD p = (b && decide (p = q)) := by
  cases b with
  | false => simp [bitAt]
  | true =>
    rw [Bool.eq_iff_iff]
    simp [bitAt, hp]
    omega

/-- The bits in the order the packer consumes them are the sequence reversed (R153). -/
theorem consumedBit_eq_reverse {s : List Bit} {k : Nat} (h : k < s.length) : consumedBit s k = s.reverse.getD k false := by
  rw [consumedBit, List.getD_eq_getElem?_getD, List.getD_eq_getElem?_getD, List.getElem?_reverse h]

theorem getD_packHeader_succ (L i : Nat) : (packHeader L).getD (1 + i) 0#8 = 0#8 := by
  rw [packHeader, List.getD_eq_getElem?_getD, List.getElem?_set_ne (by omega), List.getElem?_replicate]
  split <;> rfl

/-- One turn of the loop sets one bit (R53). -/
theorem getLsbD_placeBit (s : List Bit) {buf : List Byte} (hbuf : buf.length = 30) (k : Nat) {i p : Nat} (hi : i < 29)
    (hp : p < 8) :
    ((placeBit s buf k).getD (1 + i) 0#8).getLsbD p =
      ((buf.getD (1 + i) 0#8).getLsbD p || (consumedBit s k && decide (8 * i + p = k))) := by
  rw [placeBit, List.getD_eq_getElem _ _ (by simp; omega), List.getD_eq_getElem _ _ (by omega), List.getElem_modify]
  split
  · have hplace : p = k % 8 ↔ 8 * i + p = k := by omega
    rw [BitVec.getLsbD_or, getLsbD_bitAt _ hp]
    simp only [hplace]
  · have hplace : 8 * i + p ≠ k := by omega
    simp [hplace]

/-- The loop's invariant: after `n` turns the consumed bits below `n` stand at their places, and no other bit is set. -/
theorem getLsbD_packPayload (s : List Bit) (n : Nat) {i p : Nat} (hi : i < 29) (hp : p < 8) :
    ((packPayload s n).getD (1 + i) 0#8).getLsbD p = (decide (8 * i + p < n) && consumedBit s (8 * i + p)) := by
  induction n with
  | zero =>
    have hzero : (packPayload s 0).getD (1 + i) 0#8 = 0#8 := getD_packHeader_succ s.length i
    rw [hzero]
    simp
  | succ n ih =>
    rw [packPayload_succ, getLsbD_placeBit s (packPayload_length s n) n hi hp, ih]
    by_cases h : 8 * i + p = n
    · simp [h]
    · have : 8 * i + p < n + 1 ↔ 8 * i + p < n := by omega
      simp [h, this]

theorem getD_packPayload_zero (s : List Bit) (n : Nat) : (packPayload s n).getD 0 0#8 = BitVec.ofNat 8 s.length := by
  induction n with
  | zero => simp [packPayload, packHeader]
  | succ n ih =>
    have hne : 1 + n / 8 ≠ 0 := by omega
    rw [packPayload_succ, placeBit, List.getD_eq_getElem?_getD, List.getElem?_modify_ne _ _ hne,
      ← List.getD_eq_getElem?_getD, ih]

/-- Byte 29 is the last written byte (R155). -/
theorem getD_packBits_last_byte (s : List Bit) :
    (packBits s).getD 29 0#8 = (packPayload s s.length).getD (lastIndex s.length) 0#8 := by
  rw [packBits, copyLast, List.getD_eq_getElem _ _ (by simp), List.getElem_set_self]

/-- The copy into byte 29 changes no other byte, and not byte 29 where that is the last written one. -/
theorem getD_packBits {s : List Bit} {a : Nat} (h : a ≠ 29 ∨ a = lastIndex s.length) :
    (packBits s).getD a 0#8 = (packPayload s s.length).getD a 0#8 := by
  by_cases ha : a = 29
  · subst ha
    rw [getD_packBits_last_byte, ← h.resolve_left (not_not_intro rfl)]
  · rw [packBits, copyLast, List.getD_eq_getElem?_getD, List.getElem?_set_ne (Ne.symm ha), ← List.getD_eq_getElem?_getD]

theorem getD_packBits_zero (s : List Bit) : (packBits s).getD 0 0#8 = BitVec.ofNat 8 s.length :=
  (getD_packBits (.inl (by decide))).trans (getD_packPayload_zero s s.length)

/-- Byte 29 equals byte `last` (R52). -/
theorem getD_packBits_copy (s : List Bit) : (packBits s).getD 29 0#8 = (packBits s).getD (lastIndex s.length) 0#8 := by
  rw [getD_packBits (.inr rfl), getD_packBits_last_byte]

/-- R53 for every payload byte but an unused byte 29, which R52 makes a copy. -/
theorem getLsbD_packBits {s : List Bit} {i p : Nat} (hi : i < 29) (h : i ≠ 28 ∨ i = (s.length - 1) / 8) (hp : p < 8) :
    ((packBits s).getD (1 + i) 0#8).getLsbD p = s.reverse.getD (8 * i + p) false := by
  rw [getD_packBits (by unfold lastIndex; omega), getLsbD_packPayload s _ hi hp]
  by_cases hk : 8 * i + p < s.length
  · simp only [hk, decide_true, Bool.true_and, consumedBit_eq_reverse hk]
  · rw [List.getD_eq_default _ _ (by simpa using hk)]
    simp [hk]

/-- The bytes `last + 1` to 28 are zero (R52). -/
theorem getD_packBits_eq_zero {s : List Bit} {a : Nat} (hlast : lastIndex s.length < a) (ha : a ≤ 28) :
    (packBits s).getD a 0#8 = 0#8 := by
  unfold lastIndex at hlast
  obtain ⟨i, rfl⟩ := Nat.exists_eq_add_of_le (show 1 ≤ a by omega)
  refine BitVec.eq_of_getLsbD_eq fun p hp => ?_
  rw [getLsbD_packBits (by omega) (.inl (by omega)) hp, List.getD_eq_default _ _ (by rw [List.length_reverse]; omega),
    BitVec.getLsbD_zero]

/-! ### The payload as a number (R54) -/

/-- The bytes `1` to `last` of the packed buffer (R52). -/
def payload (s : List Bit) : List Byte := ((packBits s).drop 1).take (lastIndex s.length)

theorem payload_length {s : List Bit} (h : s.length ≤ 232) : (payload s).length = lastIndex s.length := by
  simp [payload, lastIndex]
  omega

theorem memReadRange_payload {s : List Bit} (h : s.length ≤ 232) (m : Memory) :
    memReadRange (memWriteAll m 0 (packBits s)) 1 (lastIndex s.length) = some (payload s) := by
  have hlast : lastIndex s.length ≤ 29 := by unfold lastIndex; omega
  refine memReadRange_eq_some_iff.mpr ⟨payload_length h, fun i hi => ?_⟩
  have hread := memRead_memWriteAll_inside (m := m) (a := 0) (i := 1 + i) (vs := packBits s) (by simp; omega)
  rw [Nat.zero_add] at hread
  rw [hread, payload, List.getElem?_take_of_lt hi, List.getElem?_drop]

/-- R53 for the payload bytes, in the order of consumption. -/
theorem getLsbD_payload {s : List Bit} (h : s.length ≤ 232) (k : Nat) :
    ((payload s).getD (k / 8) 0#8).getLsbD (k % 8) = s.reverse.getD k false := by
  have hlast : lastIndex s.length = 1 + (s.length - 1) / 8 := rfl
  by_cases hk : k / 8 < lastIndex s.length
  · have hbits := getLsbD_packBits (s := s) (i := k / 8) (by omega) (by omega) (Nat.mod_lt k (by decide))
    rw [Nat.div_add_mod] at hbits
    rw [← hbits, payload, List.getD_eq_getElem?_getD, List.getElem?_take_of_lt hk, List.getElem?_drop,
      List.getD_eq_getElem?_getD]
  · rw [List.getD_eq_default _ _ (by rw [payload_length h]; omega), List.getD_eq_default _ _ (by rw [List.length_reverse]; omega)]
    exact BitVec.getLsbD_zero

theorem littleEndian_cons (b : Byte) (bytes : List Byte) :
    littleEndian (b :: bytes) = 2 ^ 8 * littleEndian bytes + b.toNat := Nat.add_comm _ _

theorem testBit_littleEndian (bytes : List Byte) (k : Nat) :
    (littleEndian bytes).testBit k = (bytes.getD (k / 8) 0#8).getLsbD (k % 8) := by
  induction bytes generalizing k with
  | nil => simp [littleEndian]
  | cons b bytes ih =>
    rw [littleEndian_cons, Nat.testBit_two_pow_mul_add _ b.isLt]
    split
    · rename_i hk
      rw [Nat.div_eq_of_lt hk, Nat.mod_eq_of_lt hk]
      rfl
    · rename_i hk
      obtain ⟨j, rfl⟩ := Nat.exists_eq_add_of_le' (not_lt.mp hk)
      simp [ih]

theorem numeral_append_singleton (s : List Bit) (b : Bit) : numeral (s ++ [b]) = Nat.bit b (numeral s) := by
  rw [Nat.bit_val, numeral, List.foldl_append]
  rfl

theorem testBit_numeral (s : List Bit) (k : Nat) : (numeral s).testBit k = s.reverse.getD k false := by
  induction s using List.reverseRecOn generalizing k with
  | nil => simp [numeral]
  | append_singleton s b ih =>
    rw [numeral_append_singleton, List.reverse_concat']
    cases k with
    | zero => exact Nat.testBit_bit_zero _ _
    | succ k => rw [Nat.testBit_bit_succ, ih, List.getD_cons_succ]

theorem littleEndian_payload {s : List Bit} (h : s.length ≤ 232) : littleEndian (payload s) = numeral s :=
  Nat.eq_of_testBit_eq fun k => by rw [testBit_littleEndian, getLsbD_payload h, testBit_numeral]

/-- Each digit with its weight, the first the most significant. -/
theorem foldl_numeral (s : List Bit) (v : Nat) :
    s.foldl (fun v b => 2 * v + b.toNat) v =
      v * 2 ^ s.length + ((List.range s.length).map fun j => (s.getD j false).toNat * 2 ^ (s.length - 1 - j)).sum := by
  induction s generalizing v with
  | nil => simp
  | cons b s ih =>
    have hweight (j : Nat) : s.length - 1 - j = s.length - (j + 1) := by omega
    rw [List.foldl_cons, ih]
    simp only [List.length_cons, List.range_succ_eq_map, List.map_cons, List.map_map, List.sum_cons, Function.comp_def,
      List.getD_cons_zero, List.getD_cons_succ, Nat.add_sub_cancel, Nat.sub_zero, Nat.succ_eq_add_one, hweight]
    ring

theorem numeral_eq_sum (s : List Bit) :
    numeral s = ((List.range s.length).map fun j => (s.getD j false).toNat * 2 ^ (s.length - 1 - j)).sum := by
  rw [numeral, foldl_numeral, Nat.zero_mul, Nat.zero_add]

end Sys2Proof.Machine

namespace Sys2Proof.Proofs

open Machine

/-- Settles O40: each clause reads a byte of the packed frame, which `getLsbD_packBits` gives bit by bit. -/
theorem packedBufferAddressMap : Obligations.PackedBufferAddressMap := by
  intro s herr h1 h232
  rw [State.slen] at *
  have hread {a : Nat} (ha : a < 30) : (storeBuf (packBits s.seq) s).readBuf a = .ok ((packBits s.seq).getD a 0#8) :=
    readBuf_storeBuf (packBits_length _) s ha
  refine ⟨storeBuf (packBits s.seq) s, exec_pack_of_length herr h1 h232, ?_, fun k hk => ?_, fun p v hp hunused hv => ?_,
    fun a hlast ha => ?_, ?_⟩
  · rw [hread (by decide), getD_packBits_zero]
  · refine ⟨_, hread (by omega), ?_⟩
    rw [getLsbD_packBits (by omega) (by omega) (Nat.mod_lt k (by decide)), Nat.div_add_mod, List.getD_eq_getElem?_getD,
      List.getElem?_reverse hk, List.getElem?_eq_getElem (by omega), Option.getD_some]
  · cases hv.symm.trans (hread (by omega))
    rw [getLsbD_packBits (by omega) (.inr rfl) hp]
    exact List.getD_eq_default _ _ (by rwa [List.length_reverse])
  · rw [hread (by omega), getD_packBits_eq_zero hlast ha]
  · rw [hread (by decide), hread (by omega), getD_packBits_copy, lastIndex]

/-- Settles O41: the two numbers agree bit by bit. -/
theorem payloadSpellsTheNumeral : Obligations.PayloadSpellsTheNumeral := by
  intro s herr h1 h232
  have hnum : littleEndian (payload s.seq) = numeral s.seq := littleEndian_payload h232
  exact ⟨_, payload s.seq, exec_pack_of_length herr h1 h232, memReadRange_payload h232 s.buf,
    hnum.trans (numeral_eq_sum s.seq), hnum⟩

/-- Settles O45: where the invariant holds, a deliverable state's frame is the thirty bytes `BUF` holds. -/
theorem transportTakesThirtyBytes : Obligations.TransportTakesThirtyBytes := by
  intro s hinv
  refine ⟨fun hd => ?_, frame_of_not_deliverable⟩
  obtain ⟨q, _, _, hlen, hrange⟩ := hinv.frameValid hd.1
  exact ⟨packBits q, (frame_of_deliverable hd).trans hrange, hlen, fun _ => readBuf_of_memReadRange hrange⟩

/-- Settles O5, by the one branch of `step` that a decodable command takes. -/
theorem stepRunsTheDecodedCommand : Obligations.StepRunsTheDecodedCommand := fun _ _ _ _ => step_command

/-- Settles O44, by the three outcomes of a read. -/
theorem bufferReadsStayInside : Obligations.BufferReadsStayInside := fun _ _ =>
  ⟨readBuf_outside, fun ha _ => readBuf_of_memRead_some ha, readBuf_of_memRead_none⟩

end Sys2Proof.Proofs
end

section
/-! PROOFS. The command port (spec/30_encoding.md R70 to R77, R84): the decoder on each value of `op`, the ports it looks at, the
round trip through the encoder, and the source no command changes. -/

namespace Sys2Proof

/-! ### The opcode map (R72) -/

section
variable {p : Ports}

theorem decode_nop (h : p.op = 0x0#4) : decode p = .ok .nop := by rw [decode, h]; rfl
theorem decode_run (h : p.op = 0x1#4) : decode p = .ok (.run p.argN p.argAmp) := by rw [decode, h]; rfl
theorem decode_minit (h : p.op = 0x4#4) : decode p = .ok (.minit p.argAmp) := by rw [decode, h]; rfl
theorem decode_madv (h : p.op = 0x5#4) : decode p = .ok .madv := by rw [decode, h]; rfl
theorem decode_capt (h : p.op = 0x6#4) : decode p = .ok .capt := by rw [decode, h]; rfl
theorem decode_sclr (h : p.op = 0x8#4) : decode p = .ok .sclr := by rw [decode, h]; rfl
theorem decode_spush (h : p.op = 0x9#4) : decode p = .ok (.spush p.argBit) := by rw [decode, h]; rfl
theorem decode_rot (h : p.op = 0xA#4) : decode p = .ok .rot := by rw [decode, h]; rfl
theorem decode_pack (h : p.op = 0xC#4) : decode p = .ok .pack := by rw [decode, h]; rfl

theorem decode_reserved (h : p.op ∈ [0x2#4, 0x3#4, 0x7#4, 0xB#4, 0xD#4, 0xE#4, 0xF#4]) :
    decode p = .error (.reservedOp p.op) := by
  obtain ⟨op, n, a, b⟩ := p
  fin_cases h <;> rfl

/-- The nine defined values of `op`, and the seven reserved ones. -/
theorem op_cases : ∀ op : BitVec 4,
    op = 0x0#4 ∨ op = 0x1#4 ∨ op = 0x4#4 ∨ op = 0x5#4 ∨ op = 0x6#4 ∨ op = 0x8#4 ∨ op = 0x9#4 ∨ op = 0xA#4 ∨ op = 0xC#4 ∨
      op ∈ [0x2#4, 0x3#4, 0x7#4, 0xB#4, 0xD#4, 0xE#4, 0xF#4] := by
  decide

end

/-! ### The ports the decoder looks at (R76) -/

/-- Presentations that agree on `op` and on the operand ports its command uses decode alike. -/
theorem decode_congr {p q : Ports} (hop : p.op = q.op) (hn : q.op = 0x1#4 → p.argN = q.argN)
    (ha : q.op = 0x1#4 ∨ q.op = 0x4#4 → p.argAmp = q.argAmp) (hb : q.op = 0x9#4 → p.argBit = q.argBit) :
    decode p = decode q := by
  rcases op_cases q.op with h | h | h | h | h | h | h | h | h | h
  · rw [decode_nop (hop.trans h), decode_nop h]
  · rw [decode_run (hop.trans h), decode_run h, hn h, ha (.inl h)]
  · rw [decode_minit (hop.trans h), decode_minit h, ha (.inr h)]
  · rw [decode_madv (hop.trans h), decode_madv h]
  · rw [decode_capt (hop.trans h), decode_capt h]
  · rw [decode_sclr (hop.trans h), decode_sclr h]
  · rw [decode_spush (hop.trans h), decode_spush h, hb h]
  · rw [decode_rot (hop.trans h), decode_rot h]
  · rw [decode_pack (hop.trans h), decode_pack h]
  · rw [decode_reserved (hop ▸ h), decode_reserved h, hop]

/-! ### Encoding and decoding -/

theorem decode_encode (k : AmpKind) (i : Instr) : decode (encode k i) = .ok i := by
  cases i with
  | nop => exact decode_nop rfl
  | run n a => exact decode_run rfl
  | minit a => exact decode_minit rfl
  | madv => exact decode_madv rfl
  | capt => exact decode_capt rfl
  | sclr => exact decode_sclr rfl
  | spush b => exact decode_spush rfl
  | rot => exact decode_rot rfl
  | pack => exact decode_pack rfl

/-- Each branch of the decoder is taken at the opcode of the command it answers. -/
theorem opcode_of_decode {p : Ports} {i : Instr} (h : decode p = .ok i) : i.opcode = p.op := by
  unfold decode at h
  split at h <;> cases h <;> exact BitVec.eq_of_toNat_eq (Eq.symm ‹_›)

end Sys2Proof

namespace Sys2Proof.Machine

/-! ### One step, and the source -/

theorem step_head_command {p : Ports} {i : Instr} (h : decode p = .ok i) (s : State) (rest : List Input) :
    step { s with inputs := .command p :: rest } = exec i (setInputs rest s) := step_command rfl h

theorem step_head_illegal {p : Ports} {e : DecodeError} (h : decode p = .error e) (s : State) (rest : List Input) :
    step { s with inputs := .command p :: rest } = .next (illegalCommand (setInputs rest s)) := step_illegal rfl h

/-- Presentations that decode alike, reserved ones included, have the same step. -/
theorem step_congr_decode {p q : Ports} (h : decode p = decode q) (s : State) (rest : List Input) :
    step { s with inputs := .command p :: rest } = step { s with inputs := .command q :: rest } := by
  cases hq : decode q with
  | ok i => rw [step_head_command (h.trans hq), step_head_command hq]
  | error e => rw [step_head_illegal (h.trans hq), step_head_illegal hq]

theorem env_keptByUpdates : KeptByUpdates fun s t => t.env = s.env where
  refl _ := rfl
  trans _ _ _ hst htu := htu.trans hst
  raise _ _ _ := rfl
  newModulator _ _ _ _ := rfl
  modStep _ _ _ := rfl
  clear _ _ := rfl
  rotated _ _ _ _ _ := rfl
  append _ _ _ _ := rfl
  pack _ _ _ _ := rfl

end Sys2Proof.Machine

namespace Sys2Proof.Proofs

open Machine

/-- Settles O27: no update of a command touches the environment, of which `SRC` is a function. -/
theorem commandsKeepTheSource : Obligations.CommandsKeepTheSource := by
  intro i s t hexec
  have henv : t.env = s.env := env_keptByUpdates.exec hexec
  exact ⟨rfl, henv, fun j => congrArg (command · j) henv⟩

/-- Settles O1, a row of the map at a time. -/
theorem decoderFollowsTheOpcodeMap : Obligations.DecoderFollowsTheOpcodeMap := fun _ =>
  ⟨decode_nop, decode_run, decode_minit, decode_madv, decode_capt, decode_sclr, decode_spush, decode_rot, decode_pack,
    decode_reserved⟩

/-- Settles O2, by evaluating the decoder on each word. -/
theorem tableWordsDecode : Obligations.TableWordsDecode := ⟨rfl, rfl, rfl, rfl, rfl, rfl, rfl, rfl, rfl, rfl⟩

/-- Settles O3: the encoder puts the command's opcode on the port, and a decoded command has the opcode presented. -/
theorem decodeAndEncodeAgree : Obligations.DecodeAndEncodeAgree :=
  ⟨decode_encode, fun k _ i h => ⟨opcode_of_decode h, (decode_encode k i).trans h.symm⟩⟩

/-- Settles O4: the decoder looks at no port the command does not use, and a step sees only what it decodes. -/
theorem unusedPortsChangeNothing : Obligations.UnusedPortsChangeNothing := by
  intro s p rest n a b
  refine ⟨fun hrun => step_congr_decode ?_ s rest, fun hrun hminit => step_congr_decode ?_ s rest,
    fun hspush => step_congr_decode ?_ s rest⟩
  · exact decode_congr rfl (absurd · hrun) (fun _ => rfl) fun _ => rfl
  · exact decode_congr rfl (fun _ => rfl) (absurd · (not_or.mpr ⟨hrun, hminit⟩)) fun _ => rfl
  · exact decode_congr rfl (fun _ => rfl) (fun _ => rfl) (absurd · hspush)

end Sys2Proof.Proofs
end

section
/-! PROOFS. The modulator commands (spec/40_modulator.md R104 to R108): the quantizer over each kind of `AMP`, a sum over `F64` that
is not a finite rounding (R112, R113), and what each command leaves of `BUF`, the store and the modulator. -/

namespace Sys2Proof.Machine

/-! ### Kinds of pattern -/

theorem f64IsNaN_of_inf {b : BitVec 64} (h : f64IsInf b = true) : f64IsNaN b = false := by
  simp_all [f64IsInf, f64IsNaN]

theorem f64Exp_neg (b : BitVec 64) : f64Exp (f64Neg b) = f64Exp b := by
  have hmask : BitVec.extractLsb 62 52 0x8000000000000000#64 = 0 := by decide
  rw [f64Exp, f64Neg, BitVec.extractLsb_xor, hmask]
  simp [f64Exp]

theorem f64Frac_neg (b : BitVec 64) : f64Frac (f64Neg b) = f64Frac b := by
  have hmask : BitVec.extractLsb 51 0 0x8000000000000000#64 = 0 := by decide
  rw [f64Frac, f64Neg, BitVec.extractLsb_xor, hmask]
  simp [f64Frac]

@[simp] theorem f64Sign_neg (b : BitVec 64) : f64Sign (f64Neg b) = !f64Sign b := by
  have hmask : (0x8000000000000000#64).msb = true := by decide
  rw [f64Sign, f64Neg, BitVec.msb_xor, hmask, Bool.xor_true, f64Sign]

@[simp] theorem f64IsNaN_neg (b : BitVec 64) : f64IsNaN (f64Neg b) = f64IsNaN b := by
  rw [f64IsNaN, f64Exp_neg, f64Frac_neg, f64IsNaN]

@[simp] theorem f64IsInf_neg (b : BitVec 64) : f64IsInf (f64Neg b) = f64IsInf b := by
  rw [f64IsInf, f64Exp_neg, f64Frac_neg, f64IsInf]

@[simp] theorem f64IsFinite_neg (b : BitVec 64) : f64IsFinite (f64Neg b) = f64IsFinite b := by
  rw [f64IsFinite, f64Exp_neg, f64IsFinite]

/-- R6: flipping the sign negates the value. -/
theorem f64Int_neg (b : BitVec 64) : f64Int (f64Neg b) = -f64Int b := by
  have hmag : f64Mag (f64Neg b) = f64Mag b := by rw [f64Mag, f64Exp_neg, f64Frac_neg, f64Mag]
  rw [f64Int, f64Int, f64Sign_neg, hmag]
  cases f64Sign b <;> simp

theorem f64IsNaN_quietNaN (free : BitVec 64) : f64IsNaN (f64QuietNaN free) = true := by
  have hexp : f64Exp (f64QuietNaN free) = 2047 := by
    have hmask : BitVec.extractLsb 62 52 0x7FF8000000000000#64 = BitVec.allOnes 11 := by decide
    rw [f64Exp, f64QuietNaN, BitVec.extractLsb_or, hmask, BitVec.or_allOnes]
    rfl
  have hfrac : 2 ^ 51 ≤ f64Frac (f64QuietNaN free) := by
    rw [f64Frac, f64QuietNaN, BitVec.extractLsb_or, BitVec.toNat_or]
    exact Nat.right_le_or
  simp only [f64IsNaN, hexp, beq_self_eq_true, Bool.true_and, bne_iff_ne]
  omega

/-! ### The sign test -/

theorem f64Ge0_of_nan {b : BitVec 64} (h : f64IsNaN b = true) : f64Ge0 b = false := by
  simp [f64Ge0, h]

/-- `-0.0` is finite, so an infinity passes by its sign alone. -/
theorem f64Ge0_of_inf {b : BitVec 64} (h : f64IsInf b = true) : f64Ge0 b = !f64Sign b := by
  have hne : b ≠ 0x8000000000000000#64 := by
    rintro rfl
    revert h
    decide
  simp [f64Ge0, f64IsNaN_of_inf h, hne]

theorem f64Gt0_iff (b : BitVec 64) : f64Gt0 b = true ↔ f64IsNaN b = false ∧ f64Sign b = false ∧ b ≠ 0#64 := by
  simp [f64Gt0, and_assoc]

/-- A packed magnitude up to that of an infinity is no NaN. -/
theorem f64IsNaN_pack (sign : Bool) {m : Nat} (hm : m ≤ 2047 * 2 ^ 52) : f64IsNaN (f64Pack sign m) = false := by
  have hlt : m < 2 ^ 63 := by omega
  rw [f64IsNaN, f64Exp_pack sign hlt, f64Frac_pack sign hlt, Bool.and_eq_false_iff, beq_eq_false_iff_ne, bne_eq_false_iff_eq]
  omega

theorem f64IsInf_pack_iff (sign : Bool) {m : Nat} (hm : m ≤ 2047 * 2 ^ 52) :
    f64IsInf (f64Pack sign m) = true ↔ m = 2047 * 2 ^ 52 := by
  have hlt : m < 2 ^ 63 := by omega
  rw [f64IsInf, f64Exp_pack sign hlt, f64Frac_pack sign hlt, Bool.and_eq_true, beq_iff_eq, beq_iff_eq]
  omega

/-- R112: of the packed patterns with the sign bit set only `-0.0` passes. -/
theorem f64Ge0_pack_iff (sign : Bool) {m : Nat} (hm : m ≤ 2047 * 2 ^ 52) :
    f64Ge0 (f64Pack sign m) = true ↔ sign = false ∨ m = 0 := by
  have hlt : m < 2 ^ 63 := by omega
  have hzero : f64Pack true m = 0x8000000000000000#64 ↔ m = 0 := by
    rw [← BitVec.toNat_inj, f64Pack_toNat true hlt]
    simp
  rw [f64Ge0, f64IsNaN_pack sign hm, f64Sign_pack sign hlt]
  cases sign <;> simp [hzero]

/-! ### The sum where an operand is not finite (R112) -/

theorem f64AddWith_of_nan {nan a b : BitVec 64} (h : f64IsNaN a = true ∨ f64IsNaN b = true) : f64AddWith nan a b = nan := by
  rcases h with h | h <;> simp [f64AddWith, h]

theorem f64AddWith_of_infs_ne {nan a b : BitVec 64} (ha : f64IsInf a = true) (hb : f64IsInf b = true)
    (h : f64Sign a ≠ f64Sign b) : f64AddWith nan a b = nan := by
  simp [f64AddWith, ha, hb, h]

theorem f64AddWith_of_infs_eq {nan a b : BitVec 64} (ha : f64IsInf a = true) (hb : f64IsInf b = true)
    (h : f64Sign a = f64Sign b) : f64AddWith nan a b = a := by
  simp [f64AddWith, f64IsNaN_of_inf, ha, hb, h]

theorem f64AddWith_of_inf_of_finite {nan a b : BitVec 64} (ha : f64IsInf a = true) (hb : f64IsFinite b = true) :
    f64AddWith nan a b = a := by
  simp [f64AddWith, f64IsNaN_of_inf, f64IsNaN_of_finite, f64IsInf_of_finite, ha, hb]

theorem f64AddWith_of_finite_of_inf {nan a b : BitVec 64} (ha : f64IsFinite a = true) (hb : f64IsInf b = true) :
    f64AddWith nan a b = b := by
  simp [f64AddWith, f64IsNaN_of_inf, f64IsNaN_of_finite, f64IsInf_of_finite, ha, hb]

/-- An infinite step stays infinite under either decision. -/
theorem f64IsInf_mulDec {x : BitVec 64} (h : f64IsInf x = true) (d : Bit) :
    f64IsInf (AmpKind.f64.mulDec (.f64 x) d).toBits = true := by
  cases d with
  | true => exact h
  | false => exact (f64IsInf_neg x).trans h

/-! ### Overflow of a finite sum (R113) -/

/-- A magnitude that is not zero does not round to zero: the values near zero are as fine as the units. -/
theorem f64RoundMag_ne_zero {a : Nat} (h : a ≠ 0) : f64RoundMag a ≠ 0 := by
  have hmin : f64RoundMag a = min _ _ := rfl
  have hround : roundShift a (Nat.log2 a - 52) ≠ 0 := by
    by_cases hk : Nat.log2 a - 52 = 0
    · rw [hk]
      simpa [roundShift, Nat.mod_one] using h
    · have hsig := le_roundShift_log2 hk
      omega
  omega

/-- From an odd number of steps on a value rounds up from half a step, the tie included. -/
theorem succ_le_roundShift_iff {a k n : Nat} (hodd : n % 2 = 1) :
    n + 1 ≤ roundShift a (k + 1) ↔ (2 * n + 1) * 2 ^ k ≤ a := by
  have hrem : a % (2 * 2 ^ k) < 2 * 2 ^ k := Nat.mod_lt _ (by positivity)
  have hdiv : 2 ^ k * (2 * (a / (2 * 2 ^ k))) + a % (2 * 2 ^ k) = a := by
    rw [← Nat.mul_assoc, Nat.mul_comm (2 ^ k), Nat.div_add_mod]
  have hbound : (2 * n + 1) * 2 ^ k = 2 ^ k * (2 * n) + 2 ^ k := by ring
  rw [roundShift, pow_succ', hbound]
  generalize a / (2 * 2 ^ k) = q at *
  generalize a % (2 * 2 ^ k) = r at *
  generalize 2 ^ k = half at *
  obtain hq | rfl | hq := Nat.lt_trichotomy q n
  · have hle : half * (2 * (q + 1)) ≤ half * (2 * n) := Nat.mul_le_mul_left half (by omega)
    rw [Nat.mul_add, Nat.mul_add] at hle
    split <;> omega
  · split <;> omega
  · have hle : half * (2 * (n + 1)) ≤ half * (2 * q) := Nat.mul_le_mul_left half (by omega)
    rw [Nat.mul_add, Nat.mul_add] at hle
    split <;> omega

theorem lt_of_log2_le {a k : Nat} (h : Nat.log2 a - 52 ≤ k) : a < 2 ^ 53 * 2 ^ k := by
  rw [← pow_add]
  exact Nat.lt_log2_self.trans_le (Nat.pow_le_pow_right (by decide) (by omega))

theorem le_of_lt_log2 {a k : Nat} (h : k < Nat.log2 a - 52) : 2 ^ 53 * 2 ^ k ≤ a := by
  rw [← pow_add]
  exact (Nat.pow_le_pow_right (by decide) (by omega)).trans (two_pow_le_of_log2 (by omega))

/-- A rounding reaches the binade that begins at `2 ^ (k + 54)` exactly from half a step below it on; only in the binade just
below does the rounding itself decide. -/
theorem binade_le_rounding_iff (a k : Nat) :
    (k + 3) * 2 ^ 52 ≤ (Nat.log2 a - 52) * 2 ^ 52 + roundShift a (Nat.log2 a - 52) ↔ (2 ^ 54 - 1) * 2 ^ k ≤ a := by
  have hround := roundShift_log2_le a
  obtain hk | hk | hk := Nat.lt_trichotomy (Nat.log2 a - 52) (k + 1)
  · have hsmall : a < 2 ^ 53 * 2 ^ k := lt_of_log2_le (Nat.le_of_lt_succ hk)
    omega
  · have hcarry : 2 ^ 53 ≤ roundShift a (k + 1) ↔ (2 ^ 54 - 1) * 2 ^ k ≤ a :=
      succ_le_roundShift_iff (n := 2 ^ 53 - 1) (by decide)
    rw [← hcarry, hk]
    omega
  · have hsig := le_roundShift_log2 (a := a) (by omega)
    have hlarge : 2 ^ 53 * 2 ^ (k + 1) ≤ a := le_of_lt_log2 hk
    omega

/-- R113: an infinity stands for the binade that would begin at `2 ^ 2098`. -/
theorem f64RoundMag_eq_inf_iff (a : Nat) : f64RoundMag a = 2047 * 2 ^ 52 ↔ (2 ^ 54 - 1) * 2 ^ 2044 ≤ a :=
  min_eq_right_iff.trans (binade_le_rounding_iff a 2044)

/-- Everything a sum of finite values can be. -/
theorem f64AddFinite_eq_pack (a b : BitVec 64) :
    (f64Int a + f64Int b = 0 ∧ f64AddFinite a b = f64Pack (f64Sign a && f64Sign b) 0) ∨
    (f64Int a + f64Int b ≠ 0 ∧
      f64AddFinite a b = f64Pack (decide (f64Int a + f64Int b < 0)) (f64RoundMag (f64Int a + f64Int b).natAbs)) := by
  by_cases h : f64Int a + f64Int b = 0
  · exact .inl ⟨h, f64AddFinite_of_sum_eq_zero h⟩
  · exact .inr ⟨h, f64AddFinite_of_sum_ne_zero h⟩

theorem f64IsNaN_addFinite (a b : BitVec 64) : f64IsNaN (f64AddFinite a b) = false := by
  rcases f64AddFinite_eq_pack a b with ⟨_, e⟩ | ⟨_, e⟩ <;> rw [e]
  · exact f64IsNaN_pack _ (Nat.zero_le _)
  · exact f64IsNaN_pack _ (f64RoundMag_le _)

theorem f64IsInf_addFinite_iff (a b : BitVec 64) :
    f64IsInf (f64AddFinite a b) = true ↔ (2 ^ 54 - 1) * 2 ^ 2044 ≤ (f64Int a + f64Int b).natAbs := by
  rcases f64AddFinite_eq_pack a b with ⟨h, e⟩ | ⟨_, e⟩
  · have hpos : 0 < (2 ^ 54 - 1) * 2 ^ 2044 := by positivity
    rw [e, h, f64IsInf_pack_iff _ (Nat.zero_le _)]
    exact iff_of_false (by decide) hpos.not_ge
  · rw [e, f64IsInf_pack_iff _ (f64RoundMag_le _), f64RoundMag_eq_inf_iff]

/-- A zero sum does not overflow, and any other has the sign of the exact sum. -/
theorem f64Sign_addFinite_of_inf {a b : BitVec 64} (h : f64IsInf (f64AddFinite a b) = true) :
    f64Sign (f64AddFinite a b) = decide (f64Int a + f64Int b < 0) := by
  rcases f64AddFinite_eq_pack a b with ⟨_, e⟩ | ⟨_, e⟩ <;> rw [e] at h ⊢
  · rw [f64IsInf_pack_iff _ (Nat.zero_le _)] at h
    cases h
  · exact f64Sign_pack _ (f64RoundMag_lt _)

/-- R107's test on a finite sum is the test on the exact sum: rounding keeps the sign, and what is not zero does not become
`-0.0`. -/
theorem f64Ge0_addFinite_iff (a b : BitVec 64) : f64Ge0 (f64AddFinite a b) = true ↔ 0 ≤ f64Int a + f64Int b := by
  rcases f64AddFinite_eq_pack a b with ⟨h, e⟩ | ⟨h, e⟩ <;> rw [e]
  · exact iff_of_true ((f64Ge0_pack_iff _ (Nat.zero_le _)).mpr (.inr rfl)) h.ge
  · have hmag : f64RoundMag (f64Int a + f64Int b).natAbs ≠ 0 := f64RoundMag_ne_zero (Int.natAbs_ne_zero.mpr h)
    rw [f64Ge0_pack_iff _ (f64RoundMag_le _), or_iff_left hmag, decide_eq_false_iff_not, not_lt]

/-! ### The quantizer (R107, R112) -/

theorem f64Sub_of_finite {c f : BitVec 64} (hc : f64IsFinite c = true) (hf : f64IsFinite f = true) :
    f64Sub c f = f64AddFinite c (f64Neg f) := f64AddWith_of_finite _ hc ((f64IsFinite_neg f).trans hf)

theorem quantize_f64 (c f : BitVec 64) : quantize .f64 (.f64 c) (.f64 f) = f64Ge0 (f64Sub c f) := rfl

theorem quantize_f64_of_finite_iff {c f : BitVec 64} (hc : f64IsFinite c = true) (hf : f64IsFinite f = true) :
    quantize .f64 (.f64 c) (.f64 f) = true ↔ f64Int f ≤ f64Int c := by
  rw [quantize_f64, f64Sub_of_finite hc hf, f64Ge0_addFinite_iff, f64Int_neg]
  omega

/-- R112: a difference that is a NaN decides -1. -/
theorem quantize_f64_of_sub_nan {c f : BitVec 64} (h : f64Sub c f = f64QuietNaN (Config.f64SubNaN c f)) :
    quantize .f64 (.f64 c) (.f64 f) = false := by
  rw [quantize_f64, h, f64Ge0_of_nan (f64IsNaN_quietNaN _)]

/-- R112: a difference that is the infinite command value decides by its sign. -/
theorem quantize_f64_of_sub_inf {c f : BitVec 64} (hc : f64IsInf c = true) (h : f64Sub c f = c) :
    quantize .f64 (.f64 c) (.f64 f) = !f64Sign c := by
  rw [quantize_f64, h, f64Ge0_of_inf hc]

/-! ### What each command leaves of `BUF` -/

/-- `t` has the bytes of `BUF` and the `BVALID` of `s`. -/
structure SameBuffer (s t : State) : Prop where
  buf : t.buf = s.buf
  bvalid : t.bvalid = s.bvalid

theorem SameBuffer.refl (s : State) : SameBuffer s s := ⟨rfl, rfl⟩

theorem SameBuffer.trans {s t u : State} (hst : SameBuffer s t) (htu : SameBuffer t u) : SameBuffer s u :=
  ⟨htu.buf.trans hst.buf, htu.bvalid.trans hst.bvalid⟩

theorem raise_sameBuffer (c : ErrCode) (s : State) : SameBuffer s (raise c s) := ⟨rfl, rfl⟩

theorem newModulator_sameBuffer (a : Amp) (s : State) : SameBuffer s (newModulator a s) := ⟨rfl, rfl⟩

theorem modStep_sameBuffer (s : State) : SameBuffer s (modStep s) := ⟨rfl, rfl⟩

theorem storeSeq_sameBuffer (q : List Bit) (s : State) : SameBuffer s (storeSeq q s) := ⟨rfl, rfl⟩

theorem appendBit_sameBuffer (b : Bit) (s : State) : SameBuffer s (appendBit b s) := ⟨rfl, rfl⟩

/-- R236: PACK aside, and RUN, which ends in it. -/
theorem after_sameBuffer {i : Instr} (hpack : i ≠ .pack) (hrun : ∀ n a, i ≠ .run n a) (s : State) :
    SameBuffer s (after i s) := by
  cases i with
  | pack => exact absurd rfl hpack
  | run n a => exact absurd rfl (hrun n a)
  | nop => exact .refl s
  | minit a =>
    show SameBuffer s (cmdMinit a s)
    rcases cmdMinit_cases a s with ⟨_, e⟩ | ⟨_, _, e⟩ | ⟨_, _, e⟩ <;> rw [e]
    · exact .refl s
    · exact raise_sameBuffer _ s
    · exact newModulator_sameBuffer a s
  | madv =>
    show SameBuffer s (cmdMadv s)
    rcases cmdMadv_cases s with ⟨_, e⟩ | ⟨_, _, e⟩ | ⟨_, _, e⟩ <;> rw [e]
    · exact .refl s
    · exact raise_sameBuffer _ s
    · exact modStep_sameBuffer s
  | capt =>
    show SameBuffer s (cmdCapt s)
    rcases cmdCapt_cases s with ⟨_, e⟩ | ⟨_, _, e⟩ | ⟨_, _, _, e⟩ | ⟨_, _, _, e⟩ <;> rw [e]
    · exact .refl s
    · exact raise_sameBuffer _ s
    · exact raise_sameBuffer _ s
    · exact (modStep_sameBuffer s).trans (appendBit_sameBuffer _ _)
  | sclr =>
    show SameBuffer s (cmdSclr s)
    rcases cmdSclr_cases s with ⟨_, e⟩ | ⟨_, e⟩ <;> rw [e]
    · exact .refl s
    · exact storeSeq_sameBuffer _ s
  | spush b =>
    show SameBuffer s (cmdSpush b s)
    rcases cmdSpush_cases b s with ⟨_, e⟩ | ⟨_, _, e⟩ | ⟨_, _, e⟩ <;> rw [e]
    · exact .refl s
    · exact raise_sameBuffer _ s
    · exact appendBit_sameBuffer b s
  | rot =>
    show SameBuffer s (cmdRot s)
    rcases cmdRot_cases s with ⟨_, e⟩ | ⟨_, _, e⟩ | ⟨_, _, _, e⟩ | ⟨r, _, _, _, e⟩ <;> rw [e]
    · exact .refl s
    · exact raise_sameBuffer _ s
    · exact raise_sameBuffer _ s
    · exact storeSeq_sameBuffer r s

/-! ### What each command leaves of the store and the modulator -/

theorem cmdMinit_seq (a : Amp) (s : State) : (cmdMinit a s).seq = s.seq := by
  rcases cmdMinit_cases a s with ⟨_, e⟩ | ⟨_, _, e⟩ | ⟨_, _, e⟩ <;> rw [e]
  · rw [raise_seq]
  · rw [newModulator_seq]

theorem cmdMadv_seq (s : State) : (cmdMadv s).seq = s.seq := by
  rcases cmdMadv_cases s with ⟨_, e⟩ | ⟨_, _, e⟩ | ⟨_, _, e⟩ <;> rw [e]
  · rw [raise_seq]
  · rw [modStep_seq]

theorem cmdPack_seq (s : State) : (cmdPack s).seq = s.seq := by
  rcases cmdPack_cases s with ⟨_, e⟩ | ⟨_, _, e⟩ | ⟨_, _, e⟩ | ⟨_, _, _, e⟩ <;> rw [e]
  · rw [raise_seq]
  · rw [raise_seq]
  · rw [storeBuf_seq]

theorem cmdMadv_keeps_slope_mrdy (s : State) : (cmdMadv s).slope = s.slope ∧ (cmdMadv s).mrdy = s.mrdy := by
  rcases cmdMadv_cases s with ⟨_, e⟩ | ⟨_, _, e⟩ | ⟨_, _, e⟩ <;> rw [e]
  · exact ⟨rfl, rfl⟩
  · exact ⟨raise_slope _ s, raise_mrdy _ s⟩
  · exact ⟨modStep_slope s, modStep_mrdy s⟩

theorem cmdCapt_keeps_slope_mrdy (s : State) : (cmdCapt s).slope = s.slope ∧ (cmdCapt s).mrdy = s.mrdy := by
  rcases cmdCapt_cases s with ⟨_, e⟩ | ⟨_, _, e⟩ | ⟨_, _, _, e⟩ | ⟨_, _, _, e⟩ <;> rw [e]
  · exact ⟨rfl, rfl⟩
  · exact ⟨raise_slope _ s, raise_mrdy _ s⟩
  · exact ⟨raise_slope _ s, raise_mrdy _ s⟩
  · exact ⟨modStep_slope s, modStep_mrdy s⟩

end Sys2Proof.Machine

namespace Sys2Proof.Proofs

open Machine

/-- Settles O22: flipping the accumulator's sign negates its value, and a rounded sum passes the test exactly when the exact sum
does. -/
theorem binaryQuantizerComparesFiniteValues : Obligations.BinaryQuantizerComparesFiniteValues := fun _ _ hc hf =>
  Bool.eq_iff_iff.mpr ((quantize_f64_of_finite_iff hc hf).trans decide_eq_true_iff.symm)

/-- Settles O26: the packed magnitude is that of an infinity exactly where the rounding reaches the binade past the largest
value. -/
theorem binarySumOverflowsToInfinity : Obligations.BinarySumOverflowsToInfinity := by
  intro a b ha hb
  have hadd : f64Add a b = f64AddFinite a b := f64AddWith_of_finite _ ha hb
  rw [hadd]
  exact ⟨f64IsNaN_addFinite a b, f64IsInf_addFinite_iff a b, f64Sign_addFinite_of_inf⟩

/-- Settles O51: no update of these commands touches `BUF` or `BVALID`. -/
theorem onlyPackingTouchesTheBuffer : Obligations.OnlyPackingTouchesTheBuffer := by
  intro i s t hpack hrun hexec
  rw [exec_eq_after] at hexec
  cases hexec
  obtain ⟨hbuf, hbvalid⟩ := after_sameBuffer hpack hrun s
  exact ⟨hbvalid, fun a => by rw [hbuf]⟩

/-- Settles O53, a command at a time. -/
theorem modulatorCommandsKeepTheStore : Obligations.ModulatorCommandsKeepTheStore := by
  intro i s t hexec
  rw [exec_eq_after] at hexec
  cases hexec
  constructor
  · rintro (hi | ⟨a, rfl⟩)
    · fin_cases hi
      · exact rfl
      · exact cmdMadv_seq s
      · exact cmdPack_seq s
    · exact cmdMinit_seq a s
  · intro hi
    have hbvalid : (after i s).bvalid = s.bvalid := by
      refine (after_sameBuffer ?_ ?_ s).bvalid
      · rintro rfl
        simp at hi
      · rintro n a rfl
        simp at hi
    fin_cases hi
    · obtain ⟨hslope, hmrdy⟩ := cmdMadv_keeps_slope_mrdy s
      exact ⟨hslope, hmrdy, hbvalid⟩
    · obtain ⟨hslope, hmrdy⟩ := cmdCapt_keeps_slope_mrdy s
      exact ⟨hslope, hmrdy, hbvalid⟩

/-- Settles O18, a case of MINIT at a time; the zero is the positive test's failing case. -/
theorem minitBuildsAFreshModulator : Obligations.MinitBuildsAFreshModulator := by
  intro a s
  have hfail {x : Amp} (h : s.err = .none) (hx : s.env.amp.gt0 x = false) :
      exec (.minit x) s = .next { s with err := .paramError } := by
    rw [exec_eq_after, after, cmdMinit_running h, hx]
    rfl
  refine ⟨fun h => congrArg _ (cmdMinit_halted h), hfail, fun h => hfail h (AmpKind.gt0_zero _), fun h hg => ?_,
    fun _ => decode_minit⟩
  rw [exec_eq_after, after, cmdMinit_running h, if_pos hg]
  rfl

/-- Settles O19, a case of MADV at a time. -/
theorem madvTakesOneStep : Obligations.MadvTakesOneStep := by
  intro s
  refine ⟨fun h => congrArg _ (cmdMadv_halted h), fun h hm => ?_, fun h hm c e d hc he hd => ?_, fun _ => decode_madv⟩
  · rw [exec_eq_after, after, cmdMadv_running h, if_neg (by simp [hm])]
    rfl
  · rw [exec_eq_after, after, cmdMadv_running h, if_pos hm]
    subst hc he hd
    rfl

/-- Settles O21, by the sign of the exact difference. -/
theorem rationalQuantizerComparesValues : Obligations.RationalQuantizerComparesValues := fun c f =>
  Bool.eq_iff_iff.mpr ((quantize_q_iff (.rat c) (.rat f)).trans decide_eq_true_iff.symm)

/-- Settles O23, by which operand the difference or the sum is, or that it is a NaN. -/
theorem nonFiniteDecisions : Obligations.NonFiniteDecisions := by
  intro c f x
  refine ⟨fun h => ?_, fun hc hf h => ?_, fun hc hf => ?_, fun hc hf h => ?_, fun hc hf => ?_, by decide, fun hx hf d => ?_⟩
  · exact quantize_f64_of_sub_nan (f64AddWith_of_nan (by rwa [f64IsNaN_neg]))
  · exact quantize_f64_of_sub_nan (f64AddWith_of_infs_ne hc ((f64IsInf_neg f).trans hf) (by simp [h]))
  · exact quantize_f64_of_sub_inf hc (f64AddWith_of_inf_of_finite hc ((f64IsFinite_neg f).trans hf))
  · exact quantize_f64_of_sub_inf hc (f64AddWith_of_infs_eq hc ((f64IsInf_neg f).trans hf) (by simpa using Bool.eq_not.mpr h))
  · have hneg : f64IsInf (f64Neg f) = true := (f64IsInf_neg f).trans hf
    have hsub : f64Sub c f = f64Neg f := f64AddWith_of_finite_of_inf hc hneg
    rw [quantize_f64, hsub, f64Ge0_of_inf hneg, f64Sign_neg, Bool.not_not]
  · have hstep := f64IsInf_mulDec hx d
    have hsum : f64Add f (AmpKind.f64.mulDec (.f64 x) d).toBits = _ := f64AddWith_of_finite_of_inf hf hstep
    rw [AmpKind.add_f64, Amp.toBits_f64, Amp.toBits_f64, hsum]
    exact hstep

/-- Settles O24: the three conjuncts of the test. -/
theorem binaryPositiveTest : Obligations.BinaryPositiveTest := by
  intro b
  rw [AmpKind.gt0_f64, Amp.toBits_f64, f64Gt0_iff]

end Sys2Proof.Proofs
end

section
/-! PROOFS. The sequence store and the captures (spec/41_sequence_capture.md R121 to R128), and a run over presented commands:
the state it leaves is that of the commands one after the other. -/

namespace Sys2Proof.Machine

/-! ### Presented commands, one after the other -/

theorem setInputs_keptByUpdates (rest : List Input) : PairKeptByUpdates fun s u => u = setInputs rest s where
  err h := h ▸ rfl
  mrdy h := h ▸ rfl
  seq h := h ▸ rfl
  amp h := h ▸ rfl
  decision h := h ▸ rfl
  raise _ h := h ▸ rfl
  newModulator _ h := h ▸ rfl
  modStep _ h := h ▸ rfl
  storeSeq _ h := h ▸ rfl
  appendBit _ h := h ▸ rfl
  storeBuf _ h := h ▸ rfl

/-- No command looks at what the host will present next. -/
theorem after_setInputs (i : Instr) (rest : List Input) (s : State) :
    after i (setInputs rest s) = setInputs rest (after i s) := (setInputs_keptByUpdates rest).after i rfl

/-- The state a list of commands leaves, taken in order. -/
def afterAll (is : List Instr) (s : State) : State := is.foldl (fun t i => after i t) s

theorem afterAll_cons (i : Instr) (is : List Instr) (s : State) : afterAll (i :: is) s = afterAll is (after i s) := rfl

theorem afterAll_append (is js : List Instr) (s : State) : afterAll (is ++ js) s = afterAll js (afterAll is s) :=
  List.foldl_append

theorem afterAll_replicate_capt (n : Nat) (s : State) : afterAll (List.replicate n .capt) s = captTimes n s := by
  induction n generalizing s with
  | zero => rfl
  | succ n ih => exact ih (cmdCapt s)

/-- One step per presented command, and the later inputs still to come. -/
theorem runSteps_presented (k : AmpKind) (is : List Instr) (s : State) (rest : List Input) :
    runSteps is.length { s with inputs := is.map (present k) ++ rest } = .next (afterAll is (setInputs rest s)) := by
  induction is generalizing s with
  | nil => rfl
  | cons i is ih =>
    have hstep : step { s with inputs := (i :: is).map (present k) ++ rest } =
        .next (setInputs (is.map (present k) ++ rest) (after i s)) := by
      rw [← after_setInputs, ← exec_eq_after]
      exact step_present k i s _
    rw [List.length_cons, runSteps_succ_next hstep, afterAll_cons, after_setInputs]
    exact ih (after i s)

/-! ### The captures of a fresh modulator (R128) -/

theorem afterAll_minit_sclr {s : State} {a : Amp} (h : s.err = .none) (hg : s.env.amp.gt0 a = true) :
    afterAll [.minit a, .sclr] s = storeSeq [] (newModulator a s) := by
  show cmdSclr (cmdMinit a s) = _
  rw [cmdMinit_running h, if_pos hg, cmdSclr_running (by simpa using h)]

/-- MINIT, SCLR and `n` captures, none of which faults. -/
theorem afterAll_takeFirst {s : State} {a : Amp} {n : Nat} (h : s.err = .none) (hn : n ≤ 232)
    (hg : s.env.amp.gt0 a = true) :
    afterAll ([.minit a, .sclr] ++ List.replicate n .capt) s = captured n a s := by
  rw [afterAll_append, afterAll_minit_sclr h hg, afterAll_replicate_capt, captTimes_fresh h a hn]

end Sys2Proof.Machine

namespace Sys2Proof.Proofs

open Machine

/-- Settles O31: the run is the commands one after the other, whose captures have a closed form. -/
theorem takeFirstN : Obligations.TakeFirstN := by
  intro s n a rest h hn hg
  have hrun := runSteps_presented s.env.amp ([.minit a, .sclr] ++ List.replicate n .capt) s rest
  have hlength : ([Instr.minit a, .sclr] ++ List.replicate n Instr.capt).length = n + 2 := by simp
  rw [hlength, afterAll_takeFirst (s := setInputs rest s) h hn hg] at hrun
  exact ⟨_, hrun, captured_seq_length n a _, rfl, rfl, rfl, rfl, rfl, h, rfl⟩

/-- Settles O52, a command at a time. -/
theorem storeCommandsKeepTheModulator : Obligations.StoreCommandsKeepTheModulator := by
  intro i s t hi hexec
  rw [exec_eq_after] at hexec
  cases hexec
  have hsame : SameModulator s (after i s) := by
    rcases hi with hi | ⟨b, rfl⟩
    · fin_cases hi
      · exact .refl s
      · exact cmdSclr_sameModulator s
      · exact cmdRot_sameModulator s
      · exact cmdPack_sameModulator s
    · exact cmdSpush_sameModulator b s
  obtain ⟨hfb, hslope, hidx, hmrdy, hsamples, _⟩ := hsame
  exact ⟨hfb, hslope, hidx, hmrdy, hsamples⟩

/-- Settles O28, halted and running. -/
theorem sclrEmptiesTheStore : Obligations.SclrEmptiesTheStore := fun _ =>
  ⟨fun h => congrArg _ (cmdSclr_halted h), fun h => congrArg _ (cmdSclr_running h), fun _ => decode_sclr⟩

/-- Settles O29: halted, a full store, a store with room. -/
theorem spushAppendsTheBit : Obligations.SpushAppendsTheBit := by
  intro b s
  refine ⟨fun h => congrArg _ (cmdSpush_halted h), fun h (hfull : s.seq.length = 232) => ?_,
    fun h (hroom : s.seq.length ≠ 232) => ?_, fun _ => decode_spush⟩
  · rw [exec_eq_after, after, cmdSpush_running h, if_pos hfull]
    rfl
  · rw [exec_eq_after, after, cmdSpush_running h, if_neg hroom]
    rfl

/-- Settles O30: CAPT's two tests in their order, then the modulator step and the append. -/
theorem captStepsAndCaptures : Obligations.CaptStepsAndCaptures := by
  intro s
  refine ⟨fun h => congrArg _ (cmdCapt_halted h), fun h hm => ?_, fun h hm (hfull : s.seq.length = 232) => ?_,
    fun h hm (hroom : s.seq.length ≠ 232) c e d hc he hd => ?_, fun _ => decode_capt⟩
  · rw [exec_eq_after, after, cmdCapt_running h, if_pos hm]
    rfl
  · rw [exec_eq_after, after, cmdCapt_running h, if_neg (by simp [hm]), if_pos hfull]
    rfl
  · rw [exec_eq_after, after, cmdCapt_running h, if_neg (by simp [hm]), if_neg hroom]
    subst hc he hd
    rfl

end Sys2Proof.Proofs
end

section
/-! PROOFS. The rotator (spec/42_bit_rotator.md R135 to R142): the scan and the cases of `ROTATE`, strict alternation, and the
result as the input circle, cut after an equal pair's first bit and without that bit. -/

namespace Sys2Proof.Machine

/-! ### The scan and the cases of `ROTATE` (R137) -/

theorem firstPair_eq_some_iff {b : List Bit} {i : Nat} :
    firstPair b = some i ↔
      b[i - 1]? = b[i]? ∧ (1 ≤ i ∧ i < b.length) ∧ ∀ j, 1 ≤ j → j < i → b[j - 1]? ≠ b[j]? := by
  have hrange : i ∈ List.range' 1 (b.length - 1) ↔ 1 ≤ i ∧ i < b.length := by
    rw [List.mem_range'_1]
    omega
  rw [firstPair, List.find?_range'_eq_some, hrange]
  simp

theorem firstPair_eq_none_iff {b : List Bit} :
    firstPair b = none ↔ ∀ i, i + 1 < b.length → b[i]? ≠ b[i + 1]? := by
  rw [firstPair, List.find?_range'_eq_none]
  simp only [Bool.not_eq_true', beq_eq_false_iff_ne]
  constructor
  · exact fun h i hi => h (i + 1) (by omega) (by omega)
  · intro h i h1 hi
    obtain ⟨j, rfl⟩ := Nat.exists_eq_add_of_le' h1
    exact h j (by omega)

theorem rotate_of_ends_eq {b : List Bit} (h : b[0]? = b[b.length - 1]?) : rotate b = some b.dropLast := by
  rw [rotate, List.head?_eq_getElem?, List.getLast?_eq_getElem?, if_pos h]

theorem rotate_of_ends_ne {b : List Bit} (h : b[0]? ≠ b[b.length - 1]?) :
    rotate b = (firstPair b).map fun i => b.drop i ++ b.take (i - 1) := by
  rw [rotate, List.head?_eq_getElem?, List.getLast?_eq_getElem?, if_neg h]
  cases firstPair b <;> rfl

theorem rotate_eq_none_iff {b : List Bit} :
    rotate b = none ↔ b[0]? ≠ b[b.length - 1]? ∧ ∀ i, i + 1 < b.length → b[i]? ≠ b[i + 1]? := by
  by_cases h : b[0]? = b[b.length - 1]?
  · simp [rotate_of_ends_eq h, h]
  · rw [rotate_of_ends_ne h, Option.map_eq_none_iff, firstPair_eq_none_iff, and_iff_right h]

/-! ### Strict alternation (R140) -/

theorem eq_iff_ne_of_bit_ne {x y z : Bit} (h : x ≠ y) : z = y ↔ z ≠ x := by decide +revert

/-- In an alternating sequence the bits at even places are those equal to the first. -/
theorem getElem?_zero_eq_iff_of_alternating {b : List Bit} (h : ∀ i, i + 1 < b.length → b[i]? ≠ b[i + 1]?) {k : Nat}
    (hk : k < b.length) : b[0]? = b[k]? ↔ k % 2 = 0 := by
  induction k with
  | zero => simp
  | succ k ih =>
    have h0 : 0 < b.length := by omega
    have hk' : k < b.length := by omega
    have hne := h k hk
    have ih := ih hk'
    simp only [List.getElem?_eq_getElem, h0, hk, hk', ne_eq, Option.some_inj] at hne ih ⊢
    rw [eq_iff_ne_of_bit_ne hne, ne_eq, ih]
    omega

/-! ### The result around the circle (R139, R142) -/

theorem dropLast_rotate_succ {b : List Bit} {p : Nat} (h : p < b.length) :
    (b.rotate (p + 1)).dropLast = b.drop (p + 1) ++ b.take p := by
  rw [List.rotate_eq_drop_append_take h, List.take_succ_eq_append_getElem h, ← List.append_assoc, List.dropLast_concat]

/-- R139: the circle is cut after the first bit of an equal pair, and that bit is dropped.  In case 1 the pair meets at the
seam. -/
theorem exists_eq_dropLast_rotate_of_rotate {b r : List Bit} (hl : 2 ≤ b.length) (h : rotate b = some r) :
    ∃ p, p < b.length ∧ b[p]? = b[(p + 1) % b.length]? ∧ r = (b.rotate (p + 1)).dropLast := by
  by_cases hends : b[0]? = b[b.length - 1]?
  · refine ⟨b.length - 1, by omega, ?_, ?_⟩
    · rw [Nat.sub_add_cancel (by omega), Nat.mod_self, hends]
    · rw [Nat.sub_add_cancel (by omega), List.rotate_length]
      exact Option.some.inj (h.symm.trans (rotate_of_ends_eq hends))
  · rw [rotate_of_ends_ne hends, Option.map_eq_some_iff] at h
    obtain ⟨i, hi, rfl⟩ := h
    obtain ⟨hpair, ⟨h1, hlt⟩, -⟩ := firstPair_eq_some_iff.mp hi
    refine ⟨i - 1, by omega, ?_, ?_⟩
    · rw [Nat.sub_add_cancel h1, Nat.mod_eq_of_lt hlt, hpair]
    · rw [dropLast_rotate_succ (by omega), Nat.sub_add_cancel h1]

theorem dropLast_rotate_succ_isRotated_eraseIdx {b : List Bit} {p : Nat} (h : p < b.length) :
    (b.rotate (p + 1)).dropLast ~r b.eraseIdx p := by
  rw [dropLast_rotate_succ h, List.eraseIdx_eq_take_drop_succ]
  exact List.isRotated_append

theorem map_add_mod_range (n k : Nat) : (List.range n).map (fun j => (j + k) % n) = (List.range n).rotate k := by
  refine List.ext_getElem (by simp) fun j _ _ => ?_
  simp [List.getElem_rotate]

/-- Where the circle is cut does not matter. -/
theorem circularChanges_rotate (b : List Bit) (k : Nat) : circularChanges (b.rotate k) = circularChanges b := by
  have hperm := List.rotate_perm (List.range b.length) k
  rw [circularChanges, circularChanges, List.length_rotate, ← hperm.countP_eq fun j => b[j]? != _, ← map_add_mod_range,
    List.countP_map]
  refine List.countP_congr fun j hj => ?_
  have hj : j < b.length := List.mem_range.mp hj
  rw [List.getElem?_rotate hj, List.getElem?_rotate (Nat.mod_lt _ (by omega))]
  simp [Nat.add_right_comm]

/-- Of an equal pair at the seam, the last bit may go. -/
theorem circularChanges_dropLast {b : List Bit} (hl : 2 ≤ b.length) (h : b[0]? = b[b.length - 1]?) :
    circularChanges b.dropLast = circularChanges b := by
  obtain ⟨m, hm⟩ : ∃ m, b.length = m + 1 := ⟨b.length - 1, by omega⟩
  rw [hm, Nat.add_sub_cancel] at h
  have hseam : (b[m]? != b[(m + 1) % (m + 1)]?) = false := by rw [Nat.mod_self, h, bne_self_eq_false]
  rw [circularChanges, circularChanges, List.length_dropLast, hm, Nat.add_sub_cancel, List.range_succ, List.countP_append,
    List.countP_singleton, hseam, if_neg (by decide), Nat.add_zero]
  refine List.countP_congr fun j hj => ?_
  have hj : j < m := List.mem_range.mp hj
  have hnext : b.dropLast[(j + 1) % m]? = b[(j + 1) % (m + 1)]? := by
    obtain hjm | rfl : j + 1 < m ∨ m = j + 1 := by omega
    · rw [Nat.mod_eq_of_lt hjm, Nat.mod_eq_of_lt (by omega), List.getElem?_dropLast, if_pos (by omega)]
    · rw [Nat.mod_self, Nat.mod_eq_of_lt (by omega), List.getElem?_dropLast, if_pos (by omega), h]
  rw [hnext, List.getElem?_dropLast, if_pos (by omega)]

end Sys2Proof.Machine

namespace Sys2Proof.Proofs

open Machine

/-- Settles O33, by what the scan finds. -/
theorem rotateFollowsTheThreeCases : Obligations.RotateFollowsTheThreeCases := by
  intro b hl
  refine ⟨fun hends => ?_, fun hends i h1 hi hpair hfirst => ?_, fun hends hnone => ?_⟩
  · rw [rotate_of_ends_eq hends, List.dropLast_eq_take]
  · have hscan : firstPair b = some i := firstPair_eq_some_iff.mpr ⟨hpair, ⟨h1, by omega⟩, hfirst⟩
    rw [rotate_of_ends_ne hends, hscan, Option.map_some]
  · exact rotate_eq_none_iff.mpr ⟨hends, fun i hi => hnone (i + 1) (by omega) (by omega)⟩

/-- Settles O34: it holds of every length. -/
theorem rotationDropsOneBit : Obligations.RotationDropsOneBit := fun _ _ _ => rotate_length

/-- Settles O35: an alternating sequence has equal ends exactly when its length is odd. -/
theorem rotationFailsExactlyOnEvenAlternation : Obligations.RotationFailsExactlyOnEvenAlternation := by
  intro b hl
  have hparity (halt : ∀ i, i + 1 < b.length → b[i]? ≠ b[i + 1]?) :
      b[0]? = b[b.length - 1]? ↔ b.length % 2 = 1 := by
    rw [getElem?_zero_eq_iff_of_alternating halt (by omega)]
    omega
  constructor
  · rw [rotate_eq_none_iff, and_congr_left fun halt => (hparity halt).not.trans Nat.mod_two_ne_one]
  · intro hodd halt
    rw [rotate_of_ends_eq ((hparity halt).mpr hodd), List.dropLast_eq_take]

/-- Settles O36, at the bit `ROTATE` drops. -/
theorem rotationIsTheCircleLessOneOfAPair : Obligations.RotationIsTheCircleLessOneOfAPair := by
  intro b r hl h
  obtain ⟨p, hp, hpair, rfl⟩ := exists_eq_dropLast_rotate_of_rotate hl h
  exact ⟨p, hp, hpair, dropLast_rotate_succ_isRotated_eraseIdx hp⟩

/-- Settles O37: cut the circle inside the pair; then the dropped bit is the last, and equal to the first. -/
theorem rotationKeepsCircularChanges : Obligations.RotationKeepsCircularChanges := by
  intro b r hl h
  obtain ⟨p, hp, hpair, rfl⟩ := exists_eq_dropLast_rotate_of_rotate hl h
  have hends : (b.rotate (p + 1))[0]? = (b.rotate (p + 1))[(b.rotate (p + 1)).length - 1]? := by
    have hlast : b.length - 1 + (p + 1) = p + b.length := by omega
    rw [List.length_rotate, List.getElem?_rotate (by omega), List.getElem?_rotate (by omega), hlast, Nat.add_mod_right,
      Nat.mod_eq_of_lt hp, Nat.zero_add, hpair]
  rw [circularChanges_dropLast (by rwa [List.length_rotate]) hends, circularChanges_rotate]

/-- Settles O32, a case of ROT at a time. -/
theorem rotReplacesTheStore : Obligations.RotReplacesTheStore := by
  intro s
  refine ⟨fun h => congrArg _ (cmdRot_halted h), fun h (hl : s.seq.length < 2) => ?_,
    fun h hl hr => congrArg _ (cmdRot_of_rotate_none h hl hr), fun h hl r hr => congrArg _ (cmdRot_of_rotate_some h hl hr),
    fun _ => decode_rot⟩
  rw [exec_eq_after, after, cmdRot_running h, if_pos hl]
  rfl

end Sys2Proof.Proofs
end

section
/-! PROOFS. The packer (spec/43_bit_packer.md R150 to R162): `PACKBITS` bit by bit in the sequence's own order, its inverse, the
thirty bytes PACK leaves in `BUF`, and PACK's cases. -/

namespace Sys2Proof.Machine

/-! ### `PACKBITS` in the sequence's own order (R151, R161) -/

/-- The closed form of R151 for every payload byte but an unused byte 29. -/
theorem getLsbD_packBits_eq_ite {s : List Bit} (hpos : 1 ≤ s.length) {i p : Nat} (hi : i < 29)
    (h : i ≠ 28 ∨ i = (s.length - 1) / 8) (hp : p < 8) :
    ((packBits s).getD (1 + i) 0#8).getLsbD p =
      if 8 * i + p ≤ s.length - 1 then s.getD (s.length - 1 - (8 * i + p)) false else false := by
  rw [getLsbD_packBits hi h hp]
  split
  · exact congrFun (List.getD_reverse (8 * i + p) (by omega)) false
  · exact List.getD_eq_default _ _ (by rw [List.length_reverse]; omega)

/-- Element `j` of the sequence stands where R161 looks for it. -/
theorem getLsbD_packBits_place {s : List Bit} (h : s.length ≤ 232) {j : Nat} (hj : j < s.length) :
    ((packBits s).getD (1 + (s.length - 1 - j) / 8) 0#8).getLsbD ((s.length - 1 - j) % 8) = s[j] := by
  have hrev : s.length - 1 - (s.length - 1 - j) = j := by omega
  rw [getLsbD_packBits_eq_ite (by omega) (by omega) (by omega) (Nat.mod_lt _ (by decide)), Nat.div_add_mod,
    if_pos (Nat.sub_le _ _), hrev, List.getD_eq_getElem _ _ hj]

/-- A length that has a place for every bit fits in byte 0. -/
theorem toNat_getD_packBits_zero {s : List Bit} (h : s.length ≤ 232) : ((packBits s).getD 0 0#8).toNat = s.length := by
  rw [getD_packBits_zero, BitVec.toNat_ofNat, Nat.mod_eq_of_lt (by omega)]

/-- R161, the empty sequence taken in. -/
theorem unpackBits_packBits {s : List Bit} (h : s.length ≤ 232) : unpackBits (packBits s) = s := by
  have hlen := toNat_getD_packBits_zero h
  simp only [unpackBits, hlen]
  refine List.ext_getElem (by simp) fun j _ hj => ?_
  rw [List.getElem_map, List.getElem_range]
  exact getLsbD_packBits_place h hj

theorem packBits_injOn : Set.InjOn packBits { s | s.length ≤ 232 } :=
  Set.LeftInvOn.injOn (f₁' := unpackBits) fun _ => unpackBits_packBits

/-! ### Memories in canonical form -/

/-- In a canonical memory, reading an address finds exactly the entries listed. -/
theorem memRead_eq_some_iff_mem {m : Memory} (hm : m.Pairwise fun x y => x.1 < y.1) {c : Host.Cell} :
    memRead m c.1 = some c.2 ↔ c ∈ m := by
  induction m with
  | nil => simp
  | cons d rest ih =>
    obtain ⟨hd, hrest⟩ := List.pairwise_cons.mp hm
    rw [memRead, List.mem_cons]
    split
    · rename_i haddr
      have hnot : c ∉ rest := fun hc => absurd haddr (hd c hc).ne
      simp [hnot, Prod.ext_iff, haddr, eq_comm]
    · rename_i haddr
      have hne : c ≠ d := fun h => haddr (h ▸ rfl)
      rw [ih hrest, or_iff_right hne]

/-- A canonical memory is what is read from it. -/
theorem eq_of_memRead_eq {m n : Memory} (hm : Memory.wf m) (hn : Memory.wf n) (h : ∀ a, memRead m a = memRead n a) :
    m = n := by
  have hirrefl : Std.Irrefl fun x y : Host.Cell => x.1 < y.1 := ⟨fun _ => lt_irrefl _⟩
  refine hm.1.eq_of_mem_iff hn.1 fun c => ?_
  rw [← memRead_eq_some_iff_mem hm.1, ← memRead_eq_some_iff_mem hn.1, h]

theorem memRead_of_wf_of_le {m : Memory} (hm : Memory.wf m) {a : Nat} (ha : 30 ≤ a) : memRead m a = none := by
  refine Option.eq_none_iff_forall_ne_some.mpr fun v hv => ?_
  have hlt : a < 30 := hm.2 (a, v) ((memRead_eq_some_iff_mem hm.1).mp hv)
  omega

theorem memWriteAll_zero_wf {m : Memory} (hm : Memory.wf m) {bytes : List Byte} (hlen : bytes.length = 30) :
    Memory.wf (memWriteAll m 0 bytes) :=
  memWriteAll_wf hm (by rw [hlen, bufLen_eq])

theorem memRead_memWriteAll_zero (m : Memory) {bytes : List Byte} {a : Nat} (h : a < bytes.length) :
    memRead (memWriteAll m 0 bytes) a = bytes[a]? := by
  simpa using memRead_memWriteAll_inside (m := m) (a := 0) h

/-- Thirty bytes written from address 0 leave nothing of the memory they are written over (R162). -/
theorem memWriteAll_eq_of_wf {m n : Memory} {bytes : List Byte} (hlen : bytes.length = 30) (hm : Memory.wf m)
    (hn : Memory.wf n) : memWriteAll m 0 bytes = memWriteAll n 0 bytes := by
  refine eq_of_memRead_eq (memWriteAll_zero_wf hm hlen) (memWriteAll_zero_wf hn hlen) fun a => ?_
  by_cases ha : a < bytes.length
  · rw [memRead_memWriteAll_zero m ha, memRead_memWriteAll_zero n ha]
  · have hout : a < 0 ∨ 0 + bytes.length ≤ a := .inr (by omega)
    rw [memRead_memWriteAll_outside hout, memRead_memWriteAll_outside hout, memRead_of_wf_of_le hm (by omega),
      memRead_of_wf_of_le hn (by omega)]

/-- Writing a frame again changes nothing. -/
theorem storeBuf_storeBuf {bytes : List Byte} (hlen : bytes.length = 30) {s : State} (hwf : Memory.wf s.buf) :
    storeBuf bytes (storeBuf bytes s) = storeBuf bytes s := by
  have hbuf : memWriteAll (memWriteAll s.buf 0 bytes) 0 bytes = memWriteAll s.buf 0 bytes :=
    memWriteAll_eq_of_wf hlen (memWriteAll_zero_wf hwf hlen) hwf
  exact congrArg (fun m : Memory => { s with buf := m, bvalid := true }) hbuf

end Sys2Proof.Machine

namespace Sys2Proof.Proofs

open Machine

/-- Settles O42: `unpackBits` undoes `packBits`, so `packBits` is injective. -/
theorem packingLosesNothing : Obligations.PackingLosesNothing :=
  ⟨fun _ _ h => unpackBits_packBits h, fun _ _ _ hs _ hq h => packBits_injOn hs hq h⟩

/-- Settles O39: byte `1 + i` is the byte of the consumed bits `8 * i` to `8 * i + 7`, byte 29 from 225 bits on among them. -/
theorem packedBitsClosedForm : Obligations.PackedBitsClosedForm := by
  intro s h1 h232
  have hbyte {a : Nat} (ha : a < 30) : (packBits s)[a]? = some ((packBits s).getD a 0#8) := by
    rw [List.getD_eq_getElem _ _ (by simpa using ha), List.getElem?_eq_getElem (by simpa using ha)]
  refine ⟨packBits_length s, ?_, fun a p ha1 ha28 hp => ?_, fun h224 => ?_, fun h225 p hp => ?_⟩
  · rw [hbyte (by decide), getD_packBits_zero]
  · obtain ⟨i, rfl⟩ := Nat.exists_eq_add_of_le ha1
    rw [Nat.add_sub_cancel_left]
    exact getLsbD_packBits_eq_ite h1 (by omega) (.inl (by omega)) hp
  · rw [hbyte (by decide), hbyte (by omega), getD_packBits_copy, lastIndex]
  · exact getLsbD_packBits_eq_ite (i := 28) h1 (by decide) (.inr (by omega)) hp

/-- Settles O43: canonical memories overwritten with one frame are equal, be it in another state or by a second PACK. -/
theorem packForgetsTheOldBuffer : Obligations.PackForgetsTheOldBuffer := by
  intro s u hs hu hserr huerr hseq h1 h232
  rw [State.slen] at h1 h232
  have hlen : (packBits s.seq).length = 30 := packBits_length _
  have hagain : exec .pack (storeBuf (packBits s.seq) s) = .next (storeBuf (packBits s.seq) s) :=
    (exec_pack_of_length (s := storeBuf (packBits s.seq) s) hserr h1 h232).trans (congrArg _ (storeBuf_storeBuf hlen hs))
  refine ⟨_, _, exec_pack_of_length hserr h1 h232, exec_pack_of_length huerr (hseq ▸ h1) (hseq ▸ h232), hagain, ?_⟩
  rw [storeBuf_buf, storeBuf_buf, ← hseq]
  exact memWriteAll_eq_of_wf hlen hs hu

/-- Settles O38: halted, an empty store, one too long, and the thirty bytes read back after the write. -/
theorem packWritesTheBuffer : Obligations.PackWritesTheBuffer := by
  intro s
  refine ⟨fun h => congrArg _ (cmdPack_halted h), fun h (hempty : s.seq.length = 0) => ?_,
    fun h (hlong : 232 < s.seq.length) => ?_,
    fun h h1 h232 => ⟨exec_pack_of_length h h1 h232, packBits_length _, fun a ha => ?_, fun a ha => ?_⟩,
    fun _ => decode_pack⟩
  · rw [exec_eq_after, after, cmdPack_running h, if_pos hempty]
    rfl
  · rw [exec_eq_after, after, cmdPack_running h, if_neg (by omega), if_pos hlong]
    rfl
  · exact memRead_memWriteAll_zero s.buf (by simpa using ha)
  · exact memRead_memWriteAll_outside (.inr (by simpa using ha))

end Sys2Proof.Proofs
end

section
/-! PROOFS. RUN (spec/44_pipeline_run.md R170 to R176): its operand checks one by one, its next state past them in closed form, the
commands it stands for, and what that state depends on. -/

namespace Sys2Proof.Machine

/-! ### The operand checks (R172) -/

section
variable {k : AmpKind} {n : BitVec 16} {a : Amp}

theorem runOperandFault_of_lt_two (h : n.toNat < 2) : runOperandFault k n a = some .lengthError := if_pos h

theorem runOperandFault_of_cap_lt (h : 232 < n.toNat) : runOperandFault k n a = some .bufferOverflow := by
  rw [runOperandFault, sampleCount, if_neg (by omega), if_pos h]

theorem runOperandFault_of_bounds (h2 : 2 ≤ n.toNat) (h232 : n.toNat ≤ 232) :
    runOperandFault k n a = slopeFault k a := by
  rw [runOperandFault, sampleCount, if_neg (by omega), if_neg (by rw [seqCap_eq]; omega)]

theorem slopeFault_of_not_gt0 (hg : k.gt0 a = false) : slopeFault k a = some .paramError := by simp [slopeFault, hg]

end

/-! ### Past the checks (R173 to R175) -/

theorem runCapture_eq_captured {n : Nat} {a : Amp} {s : State} (h : s.err = .none) (hn : n ≤ 232)
    (hg : s.env.amp.gt0 a = true) : runCapture n a s = captured n a s :=
  (congrArg (captTimes n) (afterAll_minit_sclr h hg)).trans (captTimes_fresh h a hn)

section
variable {n : BitVec 16} {a : Amp} {s : State}
  (h : s.err = .none) (h2 : 2 ≤ n.toNat) (h232 : n.toNat ≤ 232) (hg : s.env.amp.gt0 a = true)
include h h2 h232 hg

/-- The sub-steps after the captures are ROT and PACK. -/
theorem cmdRun_eq_pack_rot_captured : cmdRun n a s = cmdPack (cmdRot (captured n.toNat a s)) := by
  have hf : runOperandFault s.env.amp n a = none :=
    (runOperandFault_of_bounds h2 h232).trans ((slopeFault_eq_none_iff _ _).mpr hg)
  rw [cmdRun_checked h hf, captTimes_fresh h a h232]

/-- ROT's fault halts the block, so PACK has no effect. -/
theorem cmdRun_of_rotate_none (hr : rotate (firstBits s.env a n.toNat) = none) :
    cmdRun n a s = raise .rotationError (captured n.toNat a s) := by
  have hlen : 2 ≤ (captured n.toNat a s).seq.length := by rwa [captured_seq_length]
  have hrot := cmdRot_of_rotate_none (s := captured n.toNat a s) h hlen hr
  rw [cmdRun_eq_pack_rot_captured h h2 h232 hg, hrot, cmdPack_halted (by simp)]

/-- ROT leaves one bit fewer, and PACK has room for them. -/
theorem cmdRun_of_rotate_some {r : List Bit} (hr : rotate (firstBits s.env a n.toNat) = some r) :
    cmdRun n a s = storeBuf (packBits r) (storeSeq r (captured n.toNat a s)) := by
  have hlen : 2 ≤ (captured n.toNat a s).seq.length := by rwa [captured_seq_length]
  have hrot := cmdRot_of_rotate_some (s := captured n.toNat a s) h hlen hr
  have hbits : r.length = n.toNat - 1 := by rw [rotate_length hr, firstBits_length]
  have hpack := cmdPack_of_length (s := storeSeq r (captured n.toNat a s)) h (show 1 ≤ r.length by omega)
    (show r.length ≤ 232 by omega)
  rw [cmdRun_eq_pack_rot_captured h h2 h232 hg, hrot, hpack, storeSeq_seq]

theorem cmdRun_err_of_checked : (cmdRun n a s).err = .none ∨ (cmdRun n a s).err = .rotationError := by
  cases hr : rotate (firstBits s.env a n.toNat) with
  | none => exact .inr (by rw [cmdRun_of_rotate_none h h2 h232 hg hr, raise_err])
  | some r => exact .inl (by rw [cmdRun_of_rotate_some h h2 h232 hg hr]; exact h)

/-- RUN is its commands one after the other. -/
theorem afterAll_runCommands : afterAll (runCommands n.toNat a) s = cmdRun n a s := by
  rw [runCommands, afterAll_append, afterAll_takeFirst h h232 hg, cmdRun_eq_pack_rot_captured h h2 h232 hg]
  rfl

end

/-! ### What the captures depend on (R176) -/

section
variable {e f : Env} {n : Nat} (hamp : e.amp = f.amp) (hsrc : ∀ j, j < n → command e j = command f j)
include hamp hsrc

/-- The accumulator before step `m` has seen the source below `m` alone. -/
theorem fbAt_congr (a : Amp) {m : Nat} (hm : m ≤ n) : fbAt e a m = fbAt f a m := by
  induction m with
  | zero => rw [fbAt, fbAt, hamp]
  | succ m ih => rw [fbAt, fbAt, ih (by omega), hsrc m hm, hamp]

theorem sampleAt_congr (a : Amp) {j : Nat} (hj : j < n) : sampleAt e a j = sampleAt f a j := by
  rw [sampleAt, sampleAt, decisionAt, decisionAt, fbAt_congr hamp hsrc a hj.le, hsrc j hj, hamp]

theorem firstSamples_congr (a : Amp) : firstSamples e a n = firstSamples f a n :=
  List.map_congr_left fun _ hj => sampleAt_congr hamp hsrc a (List.mem_range.mp hj)

theorem firstBits_congr (a : Amp) : firstBits e a n = firstBits f a n :=
  List.map_congr_left fun _ hj => congrArg Sample.d (sampleAt_congr hamp hsrc a (List.mem_range.mp hj))

end

/-! ### The frame after RUN -/

theorem frame_of_err_ne {s : State} (h : s.err ≠ .none) : s.frame = none :=
  frame_of_not_deliverable fun hd => h hd.2

theorem frame_storeBuf {s : State} {bytes : List Byte} (h : s.err = .none) (hlen : bytes.length = 30) :
    (storeBuf bytes s).frame = some bytes :=
  (frame_of_deliverable (s := storeBuf bytes s) ⟨rfl, h⟩).trans (memReadRange_packed s.buf hlen)

end Sys2Proof.Machine

namespace Sys2Proof.Proofs

open Machine

/-- Settles O47: the captures, rotated and packed. -/
theorem runLeavesThePackedFrame : Obligations.RunLeavesThePackedFrame := by
  intro n a s r h h2 h232 hg hr
  have hlen : r.length = n.toNat - 1 := by rw [rotate_length hr, firstBits_length]
  obtain ⟨_, hbyte, _⟩ := packedBitsClosedForm r (by omega) (by omega)
  exact ⟨congrArg _ (cmdRun_of_rotate_some h h2 h232 hg hr), hlen, hlen ▸ hbyte⟩

/-- Settles O48: the captures, and ROT's fault. -/
theorem runStopsAtRotationError : Obligations.RunStopsAtRotationError := fun _ _ _ h h2 h232 hg hr =>
  congrArg _ (cmdRun_of_rotate_none h h2 h232 hg hr)

/-- Settles O49: a run of presented commands leaves what the commands leave one after the other. -/
theorem runIsItsCommandSequence : Obligations.RunIsItsCommandSequence := by
  intro n a s rest h h2 h232 hg
  have hrun := runSteps_presented s.env.amp (runCommands n.toNat a) s rest
  have hlength : (runCommands n.toNat a).length = n.toNat + 4 := by simp [runCommands]
  rw [hlength, afterAll_runCommands (s := setInputs rest s) h h2 h232 hg] at hrun
  exact ⟨_, rfl, hrun, cmdRun_err_of_checked (s := setInputs rest s) h h2 h232 hg⟩

/-- Settles O50: the captures of the two states agree, so they rotate alike. -/
theorem runForgetsThePast : Obligations.RunForgetsThePast := by
  intro n a s u hs hu hamp hsrc h2 h232 hg
  have hgu : u.env.amp.gt0 a = true := hamp ▸ hg
  have hfb : fbAt s.env a n.toNat = fbAt u.env a n.toNat := fbAt_congr hamp hsrc a le_rfl
  have hbits : firstBits s.env a n.toNat = firstBits u.env a n.toNat := firstBits_congr hamp hsrc a
  have hsamples : u.samples ++ firstSamples u.env a n.toNat = u.samples ++ firstSamples s.env a n.toNat :=
    congrArg _ (firstSamples_congr hamp hsrc a).symm
  refine ⟨cmdRun n a s, cmdRun n a u, firstSamples s.env a n.toNat, rfl, rfl, ?_⟩
  cases hr : rotate (firstBits s.env a n.toNat) with
  | none =>
    have herr : ErrCode.rotationError ≠ .none := nofun
    rw [cmdRun_of_rotate_none hs h2 h232 hg hr, cmdRun_of_rotate_none hu h2 h232 hgu (hbits ▸ hr)]
    exact ⟨hfb, rfl, rfl, hbits, rfl, rfl, rfl, hsamples, (frame_of_err_ne herr).trans (frame_of_err_ne herr).symm,
      fun ht => absurd ht herr⟩
  | some r =>
    have hlen : (packBits r).length = 30 := packBits_length r
    rw [cmdRun_of_rotate_some hs h2 h232 hg hr, cmdRun_of_rotate_some hu h2 h232 hgu (hbits ▸ hr)]
    exact ⟨hfb, rfl, rfl, rfl, hs.trans hu.symm, rfl, rfl, hsamples,
      (frame_storeBuf hs hlen).trans (frame_storeBuf hu hlen).symm,
      fun _ _ hx => (readBuf_storeBuf hlen _ hx).trans (readBuf_storeBuf hlen _ hx).symm⟩

/-- Settles O17: NOP is the identity, and the opcode map's first row. -/
theorem nopHasNoEffect : Obligations.NopHasNoEffect := ⟨fun _ => rfl, fun _ => decode_nop⟩

/-- Settles O46, a check at a time. -/
theorem runChecksItsOperandsFirst : Obligations.RunChecksItsOperandsFirst := by
  intro n a s h
  have hfail {c : ErrCode} (hf : runOperandFault s.env.amp n a = some c) : exec (.run n a) s = .next { s with err := c } :=
    congrArg _ (cmdRun_of_fault h hf)
  refine ⟨fun hlow => hfail (runOperandFault_of_lt_two hlow), fun hhigh => hfail (runOperandFault_of_cap_lt hhigh),
    fun h2 h232 hg => ?_, fun _ h232 hg => ?_⟩
  · exact hfail ((runOperandFault_of_bounds h2 h232).trans (slopeFault_of_not_gt0 hg))
  · rw [runCapture_eq_captured h h232 hg]
    exact ⟨captured_seq_length _ a s, rfl, h⟩

end Sys2Proof.Proofs
end

section
/-! PROOFS. Faults (spec/60_exceptions.md R191 to R202): their codes, the state each command can leave from a running block, and
what a presented command does in a halted one. -/

namespace Sys2Proof.Machine

/-! ### The codes (R191) -/

/-- Every value `STATUS.ERR` can hold, in the order of the table. -/
def errCodes : List ErrCode :=
  [.none, .rotationError, .bufferOverflow, .lengthError, .paramError, .notInitialised, .illegalCommand]

theorem mem_errCodes (x : ErrCode) : x ∈ errCodes := by cases x <;> decide

theorem map_code_errCodes : errCodes.map ErrCode.code = [0#3, 1#3, 2#3, 3#3, 4#3, 5#3, 6#3] := rfl

theorem code_injective {x y : ErrCode} (h : x.code = y.code) : x = y :=
  List.inj_on_of_nodup_map (by decide) (mem_errCodes x) (mem_errCodes y) h

theorem code_mem (x : ErrCode) : x.code ∈ [0#3, 1#3, 2#3, 3#3, 4#3, 5#3, 6#3] :=
  map_code_errCodes ▸ List.mem_map_of_mem (mem_errCodes x)

/-! ### What a command leaves from a running block (R196, R202) -/

/-- The faults listed for each command (R191, R202). -/
def listedFaults : Instr → List ErrCode
  | .nop => []
  | .run _ _ => [.lengthError, .bufferOverflow, .paramError, .rotationError]
  | .minit _ => [.paramError]
  | .madv => [.notInitialised]
  | .capt => [.notInitialised, .bufferOverflow]
  | .sclr => []
  | .spush _ => [.bufferOverflow]
  | .rot => [.lengthError, .rotationError]
  | .pack => [.lengthError, .bufferOverflow]

/-- `t` is without fault, or it is `s` with one of `codes` raised. -/
def CleanOrRaised (codes : List ErrCode) (s t : State) : Prop := t.err = .none ∨ ∃ c ∈ codes, t = raise c s

section
variable {codes : List ErrCode} {s t : State}

theorem CleanOrRaised.of_raise {c : ErrCode} (hc : c ∈ codes) : CleanOrRaised codes s (raise c s) := .inr ⟨c, hc, rfl⟩

theorem CleanOrRaised.err_mem (h : CleanOrRaised codes s t) (hf : t.err ≠ .none) : t.err ∈ codes := by
  obtain hclean | ⟨c, hc, rfl⟩ := h
  · exact absurd hclean hf
  · exact hc

theorem CleanOrRaised.eq_raise (h : CleanOrRaised codes s t) (hf : t.err ≠ .none) : t = raise t.err s := by
  obtain hclean | ⟨c, _, rfl⟩ := h
  · exact absurd hclean hf
  · rfl

end

section
variable {s : State} (h : s.err = .none)
include h

theorem cmdMinit_cleanOrRaised (a : Amp) : CleanOrRaised [.paramError] s (cmdMinit a s) := by
  rw [cmdMinit_running h]
  split
  · exact .inl h
  · exact .of_raise (by decide)

theorem cmdMadv_cleanOrRaised : CleanOrRaised [.notInitialised] s (cmdMadv s) := by
  rw [cmdMadv_running h]
  split
  · exact .inl h
  · exact .of_raise (by decide)

theorem cmdCapt_cleanOrRaised : CleanOrRaised [.notInitialised, .bufferOverflow] s (cmdCapt s) := by
  rw [cmdCapt_running h]
  split
  · exact .of_raise (by decide)
  split
  · exact .of_raise (by decide)
  · exact .inl h

theorem cmdSclr_cleanOrRaised : CleanOrRaised [] s (cmdSclr s) := by
  rw [cmdSclr_running h]
  exact .inl h

theorem cmdSpush_cleanOrRaised (b : Bit) : CleanOrRaised [.bufferOverflow] s (cmdSpush b s) := by
  rw [cmdSpush_running h]
  split
  · exact .of_raise (by decide)
  · exact .inl h

theorem cmdRot_cleanOrRaised : CleanOrRaised [.lengthError, .rotationError] s (cmdRot s) := by
  rw [cmdRot_running h]
  split
  · exact .of_raise (by decide)
  split
  · exact .of_raise (by decide)
  · exact .inl h

theorem cmdPack_cleanOrRaised : CleanOrRaised [.lengthError, .bufferOverflow] s (cmdPack s) := by
  rw [cmdPack_running h]
  split
  · exact .of_raise (by decide)
  split
  · exact .of_raise (by decide)
  · exact .inl h

/-- RUN's operand faults are precise; its RotationError comes after the captures (R199). -/
theorem cmdRun_cleanOrRaised (n : BitVec 16) (a : Amp) :
    CleanOrRaised [.lengthError, .bufferOverflow, .paramError, .rotationError] s (cmdRun n a s) ∨
      (cmdRun n a s).err = .rotationError := by
  rcases cmdRun_outcomes n a s with ⟨hhalted, _⟩ | ⟨c, hc, _, e⟩ | ⟨_, _, _, e⟩ | ⟨r, _, _, _, e⟩
  · exact absurd h hhalted
  · exact .inl (.inr ⟨c, List.mem_append_left [ErrCode.rotationError] hc, e⟩)
  · exact .inr (by rw [e, raise_err])
  · exact .inl (.inl (by rw [e]; exact h))

/-- Every command but for RUN's RotationError: no fault, or one of its own with nothing else changed. -/
theorem after_cleanOrRaised (i : Instr) :
    CleanOrRaised (listedFaults i) s (after i s) ∨
      (i.opcode = 0x1#4 ∧ .rotationError ∈ listedFaults i ∧ (after i s).err = .rotationError) := by
  cases i with
  | nop => exact .inl (.inl h)
  | run n a => exact (cmdRun_cleanOrRaised h n a).imp_right fun hrot => ⟨rfl, by simp [listedFaults], hrot⟩
  | minit a => exact .inl (cmdMinit_cleanOrRaised h a)
  | madv => exact .inl (cmdMadv_cleanOrRaised h)
  | capt => exact .inl (cmdCapt_cleanOrRaised h)
  | sclr => exact .inl (cmdSclr_cleanOrRaised h)
  | spush b => exact .inl (cmdSpush_cleanOrRaised h b)
  | rot => exact .inl (cmdRot_cleanOrRaised h)
  | pack => exact .inl (cmdPack_cleanOrRaised h)

end

end Sys2Proof.Machine

namespace Sys2Proof.Proofs

open Machine

/-- Settles O13: a decoded command's fault is raised on the state it found, and so is IllegalCommand. -/
theorem faultsArePrecise : Obligations.FaultsArePrecise := by
  intro s t p rest h hin hstep hf hrun
  have hrunning : (setInputs rest s).err = .none := h
  cases hd : decode p with
  | ok i =>
    rw [step_command hin hd, exec_eq_after] at hstep
    cases hstep
    obtain hraised | ⟨hop, _, hrot⟩ := after_cleanOrRaised hrunning i
    · exact hraised.eq_raise hf
    · exact absurd hrot (hrun ((opcode_of_decode hd).symm.trans hop))
  | error e =>
    rw [step_illegal hin hd, illegalCommand_of_running hrunning] at hstep
    cases hstep
    rfl

/-- Settles O14: what a command raises is on its list, RUN's RotationError included. -/
theorem commandsRaiseOnlyTheirFaults : Obligations.CommandsRaiseOnlyTheirFaults := by
  intro i s t h hexec hf
  rw [exec_eq_after] at hexec
  cases hexec
  show (after i s).err ∈ listedFaults i
  obtain hraised | ⟨_, hmem, hrot⟩ := after_cleanOrRaised h i
  · exact hraised.err_mem hf
  · rwa [hrot]

/-- Settles O6: no reserved value decodes, and IllegalCommand is guarded as every effect is. -/
theorem reservedOpRaisesIllegalCommand : Obligations.ReservedOpRaisesIllegalCommand := by
  intro s p rest hin hop
  have hstep : step s = .next (illegalCommand (setInputs rest s)) := step_illegal hin (decode_reserved hop)
  constructor
  · intro h
    rw [hstep, illegalCommand_of_running (s := setInputs rest s) h]
    rfl
  · intro h
    rw [hstep, illegalCommand_of_halted (s := setInputs rest s) h]
    rfl

/-- Settles O7: neither a decoded command nor a reserved `op` gets past the halted guard. -/
theorem haltedBlockIgnoresEveryCommand : Obligations.HaltedBlockIgnoresEveryCommand := by
  intro s p rest h hin
  have hhalted : (setInputs rest s).err ≠ .none := h
  cases hd : decode p with
  | ok i =>
    rw [step_command hin hd, exec_eq_after, after_halted hhalted]
    rfl
  | error e =>
    rw [step_illegal hin hd, illegalCommand_of_halted hhalted]
    rfl

/-- Settles O16: the seven codes are the table's, which has no repetition and no 7. -/
theorem faultCodesAreAsTabled : Obligations.FaultCodesAreAsTabled :=
  ⟨map_code_errCodes, fun _ _ => code_injective, fun x h => absurd (h ▸ code_mem x) (by decide)⟩

end Sys2Proof.Proofs
end

section
/-! PROOFS. Reset and the step itself (spec/70_reset_and_hazards.md R220 to R226): what only a reset clears, the values it leaves,
and that every step answers a next state. -/

namespace Sys2Proof.Machine

/-- From `s` to `t` a recorded fault, `MRDY = 1` and `BVALID = 1` stay as they are. -/
structure KeepsStatus (s t : State) : Prop where
  err : s.err ≠ .none → t.err = s.err
  mrdy : s.mrdy = true → t.mrdy = true
  bvalid : s.bvalid = true → t.bvalid = true

theorem KeepsStatus.refl (s : State) : KeepsStatus s s := ⟨fun _ => rfl, id, id⟩

theorem KeepsStatus.trans {s t u : State} (hst : KeepsStatus s t) (htu : KeepsStatus t u) : KeepsStatus s u where
  err h := (htu.err (hst.err h ▸ h)).trans (hst.err h)
  mrdy := htu.mrdy ∘ hst.mrdy
  bvalid := htu.bvalid ∘ hst.bvalid

theorem setInputs_keepsStatus (rest : List Input) (s : State) : KeepsStatus s (setInputs rest s) := ⟨fun _ => rfl, id, id⟩

/-- The two flags are only ever set, and a fault is raised only where none is recorded (R197). -/
theorem keepsStatus_keptByUpdates : KeptByUpdates KeepsStatus where
  refl := KeepsStatus.refl
  trans _ _ _ := KeepsStatus.trans
  raise _ _ h := ⟨fun hf => absurd h hf, id, id⟩
  newModulator _ _ _ _ := ⟨fun _ => rfl, fun _ => rfl, id⟩
  modStep _ _ _ := ⟨fun _ => rfl, id, id⟩
  clear _ _ := ⟨fun _ => rfl, id, id⟩
  rotated _ _ _ _ _ := ⟨fun _ => rfl, id, id⟩
  append _ _ _ _ := ⟨fun _ => rfl, id, id⟩
  pack _ _ _ _ := ⟨fun _ => rfl, id, fun _ => rfl⟩

theorem keepsStatus_of_step {s t : State} (hstep : step s = .next t) (hin : ∀ src rest, s.inputs ≠ .reset src :: rest) :
    KeepsStatus s t := by
  rcases step_cases hstep with ⟨_, rfl⟩ | ⟨src, rest, hreset, _⟩ | ⟨_, rest, i, _, _, rfl⟩ | ⟨_, rest, _, rfl⟩
  · exact .refl _
  · exact absurd hreset (hin src rest)
  · exact (setInputs_keepsStatus rest s).trans (keepsStatus_keptByUpdates.after i _)
  · exact (setInputs_keepsStatus rest s).trans (keepsStatus_keptByUpdates.illegalCommand _)

theorem applyReset_status (src : List Amp) (s : State) : (applyReset src s).status = 0x00#8 := by
  show 0#2 ++ BitVec.ofBool false ++ BitVec.ofBool false ++ 0#1 ++ ErrCode.none.code = 0x00#8
  decide

end Sys2Proof.Machine

namespace Sys2Proof.Proofs

open Machine

/-- Settles O12: no update of a command clears any of the three, and the reset state has none of them. -/
theorem onlyResetClearsStatus : Obligations.OnlyResetClearsStatus := by
  intro s t hstep
  constructor
  · intro hin
    obtain ⟨herr, hmrdy, hbvalid⟩ := keepsStatus_of_step hstep hin
    exact ⟨herr, hmrdy, hbvalid⟩
  · intro src rest hin
    rw [step_reset hin] at hstep
    cases hstep
    exact ⟨rfl, rfl, rfl⟩

/-- Settles O8: the next state is `applyReset`, whose empty `BUF` has no byte to read. -/
theorem resetInputRestoresTheResetValues : Obligations.ResetInputRestoresTheResetValues := fun _ _ _ hin =>
  ⟨_, step_reset hin, rfl, rfl, rfl, rfl, applyReset_status _ _, fun _ ha => readBuf_of_memRead_none ha rfl, rfl, rfl, rfl, rfl⟩

/-- Settles O10. -/
theorem idleBlockWaits : Obligations.IdleBlockWaits := fun _ => step_idle

/-- Settles O11, an input at a time: every command that decodes has a meaning that answers a state, and a reserved `op` has
IllegalCommand. -/
theorem everyStepCompletes : Obligations.EveryStepCompletes := by
  intro s
  cases hin : s.inputs with
  | nil => exact ⟨_, step_idle hin⟩
  | cons x rest =>
    cases x with
    | reset src => exact ⟨_, step_reset hin⟩
    | command p =>
      cases hd : decode p with
      | ok i => exact ⟨_, (step_command hin hd).trans (exec_eq_after i _)⟩
      | error e => exact ⟨_, step_illegal hin hd⟩

end Sys2Proof.Proofs
end
